-- ==== Sys2Proof/Word.lean ====
section
/-! DEFINITION. The widths of the Blockputer core: every register, memory location and instruction
word has 8 bits, an opcode and an operand have 4 (00_scope.md R4, R6). -/

namespace Sys2Proof

/-- An 8-bit architectural value (R6). -/
abbrev Byte := BitVec 8

/-- A 4-bit field: an opcode, a register id, a literal (R61). -/
abbrev Nibble := BitVec 4

/-- `trunc8(n)` is `n mod 256`, the non-negative residue (R6). -/
def trunc8 (n : Int) : Byte := BitVec.ofInt 8 n

/-- `zext_9(v)`: the 9-bit value with the same number (R6). -/
def zext9 (v : Byte) : BitVec 9 := v.setWidth 9

end Sys2Proof
end

