-- ==== Sys2Proof/Config.lean ====
section
/-! DEFINITION. The configuration CFG of 00_scope.md R4: the parameters the source leaves open. The
values of CFG0 stand in Decode.lean (`cfg0`). Every field is plain data, because State carries the
configuration (log entry 1). -/

namespace Sys2Proof

/-- The 16 mnemonics, in the order of the opcode table (30_encoding.md R65). -/
inductive Mnemonic where
  | MVRA | MVAR | LDA | STA | MVAH | MVAL | JUMPZ | JUMPN
  | ADD | SUB | MUL | LLS | LRS | AND | OR | XOR
  deriving DecidableEq, Repr

/-- The special registers a register id may be mapped to (10_state.md R14 to R19). -/
inductive Special where
  | mema | insta | zero | one | min1 | inp | out
  deriving DecidableEq, Repr

/-- On which side a short program line is filled with zeros under loader policy (a): the parameter
PAD_SIDE that 93_implementation_defined.md U6 asks for. `bitsHigh`: the bits found start at bit 7.
`bitsLow`: they end at bit 0, as a shift register leaves them. -/
inductive PadSide where
  | bitsHigh | bitsLow
  deriving DecidableEq, Repr

/-- The configuration CFG (R4). OPMAP and SPECIAL are lists of rows, so that a configuration is plain
data; the first row of a key counts. -/
structure Config where
  /-- NGPR, the number of general-purpose registers. -/
  ngpr : Nat
  /-- SPECIAL, the partial map from register id to special register. -/
  special : List (Nibble × Special)
  /-- HAS_IN: there is an input register. -/
  hasIn : Bool
  /-- HAS_OUT: there is a separate output register cell. -/
  hasOut : Bool
  /-- OPMAP, from opcode to mnemonic; an opcode with no row is unmapped (R67). -/
  opmap : List (Nibble × Mnemonic)
  /-- HALT_INCLUSIVE: a step runs at PC = COUNT (R81). -/
  haltInclusive : Bool
  /-- LOADER_STRICT: a line with fewer than 8 bits is rejected (R177, R178). -/
  loaderStrict : Bool
  /-- PAD_SIDE (U6); read only when LOADER_STRICT is false. -/
  padSide : PadSide
  deriving DecidableEq, Repr

end Sys2Proof
end

