-- ==== Sys2Proof/Syntax.lean ====
section
/-! DEFINITION. The instructions: one constructor per row of the opcode table. The operand is the
4-bit field of the word: `r` a register id (30_encoding.md R62), `k` a literal (R63), `x` ignored by
the machine (R64) but kept, so that no bit of a word is lost. -/

namespace Sys2Proof

inductive Instr where
  | mvra (r : Nibble)
  | mvar (r : Nibble)
  | lda (x : Nibble)
  | sta (x : Nibble)
  | mvah (k : Nibble)
  | mval (k : Nibble)
  | jumpz (x : Nibble)
  | jumpn (x : Nibble)
  | add (r : Nibble)
  | sub (r : Nibble)
  | mul (r : Nibble)
  | lls (r : Nibble)
  | lrs (r : Nibble)
  | and (r : Nibble)
  | or (r : Nibble)
  | xor (r : Nibble)
  deriving DecidableEq, Repr

/-- The mnemonic of an instruction. -/
def Instr.mnemonic : Instr → Mnemonic
  | .mvra _ => .MVRA
  | .mvar _ => .MVAR
  | .lda _ => .LDA
  | .sta _ => .STA
  | .mvah _ => .MVAH
  | .mval _ => .MVAL
  | .jumpz _ => .JUMPZ
  | .jumpn _ => .JUMPN
  | .add _ => .ADD
  | .sub _ => .SUB
  | .mul _ => .MUL
  | .lls _ => .LLS
  | .lrs _ => .LRS
  | .and _ => .AND
  | .or _ => .OR
  | .xor _ => .XOR

/-- The operand field of an instruction. -/
def Instr.operand : Instr → Nibble
  | .mvra r => r
  | .mvar r => r
  | .lda x => x
  | .sta x => x
  | .mvah k => k
  | .mval k => k
  | .jumpz x => x
  | .jumpn x => x
  | .add r => r
  | .sub r => r
  | .mul r => r
  | .lls r => r
  | .lrs r => r
  | .and r => r
  | .or r => r
  | .xor r => r

end Sys2Proof
end

