-- ==== Sys2Proof/WellFormed.lean ====
section
/-! DEFINITION. The checks: which configurations 00_scope.md R4 admits, and which instructions have an
encoding in a configuration. Every operand value is accepted (30_encoding.md R66), so an instruction is
ill-formed only where a partial OPMAP (R67) gives its mnemonic no opcode. -/

namespace Sys2Proof

/-- NGPR is 6 to 9 (R4, 10_state.md R12). -/
abbrev Config.ngprLegal (c : Config) : Prop := 6 ≤ c.ngpr ∧ c.ngpr ≤ 9

/-- SPECIAL is an injective partial map from ids in NGPR..15 that contains MEMA, INSTA, ZERO, ONE and
MIN1 (R4), and maps to IN and to OUT exactly if the configuration has them (R19). -/
abbrev Config.specialLegal (c : Config) : Prop :=
  (c.special.map Prod.fst).Nodup ∧ (c.special.map Prod.snd).Nodup ∧
  (∀ p ∈ c.special, c.ngpr ≤ p.1.toNat) ∧
  (∀ q ∈ [Special.mema, .insta, .zero, .one, .min1], q ∈ c.special.map Prod.snd) ∧
  (Special.inp ∈ c.special.map Prod.snd ↔ c.hasIn = true) ∧
  (Special.out ∈ c.special.map Prod.snd ↔ c.hasOut = true)

/-- OPMAP is a bijection from the 16 opcodes to the 16 mnemonics with OPMAP(0) = MVRA (R4, R65): 16
rows, no opcode twice, no mnemonic twice. -/
abbrev Config.opmapLegal (c : Config) : Prop :=
  c.opmap.length = 16 ∧ (c.opmap.map Prod.fst).Nodup ∧ (c.opmap.map Prod.snd).Nodup ∧
  c.opmap.lookup 0 = some .MVRA

/-- The configurations R4 admits. -/
abbrev Config.legal (c : Config) : Prop := c.ngprLegal ∧ c.specialLegal ∧ c.opmapLegal

/-- A partial OPMAP gives no opcode two rows (R67: a partial map). -/
abbrev Config.opmapPartial (c : Config) : Prop := (c.opmap.map Prod.fst).Nodup

/-- The instruction has an opcode in the configuration. -/
abbrev Instr.wf (c : Config) (i : Instr) : Prop := i.mnemonic ∈ c.opmap.map Prod.snd

end Sys2Proof
end

