-- ==== Sys2Proof/Decode.lean ====
section
/-! DEFINITION. The instruction words: fields, decoder, encoder, and the tables of CFG0
(30_encoding.md R60 to R68, 00_scope.md R4). The decoder and the encoder read the same OPMAP. -/

namespace Sys2Proof

/-- OPMAP of CFG0 (R65). Only the row of opcode 0 is the source's; the others are the spec's
decision D1 (log entry 5). -/
def opmap0 : List (Nibble × Mnemonic) :=
  [(0x0, .MVRA), (0x1, .MVAR), (0x2, .LDA), (0x3, .STA), (0x4, .MVAH), (0x5, .MVAL),
   (0x6, .JUMPZ), (0x7, .JUMPN), (0x8, .ADD), (0x9, .SUB), (0xA, .MUL), (0xB, .LLS),
   (0xC, .LRS), (0xD, .AND), (0xE, .OR), (0xF, .XOR)]

/-- SPECIAL of CFG0 (10_state.md R15, the spec's decision D3, log entry 5): ids 13, 14, 15 unmapped. -/
def special0 : List (Nibble × Special) :=
  [(8, .mema), (9, .insta), (10, .zero), (11, .one), (12, .min1)]

/-- CFG0 (R4; decisions D1 to D6 and D13, log entry 5). `padSide` is never read in CFG0, whose loader
is strict (log entry 11). -/
def cfg0 : Config where
  ngpr := 8
  special := special0
  hasIn := false
  hasOut := false
  opmap := opmap0
  haltInclusive := true
  loaderStrict := true
  padSide := .bitsLow

/-- `opcode = ir[7:4]` (R61, R83). -/
def opcodeOf (w : Byte) : Nibble := w.extractLsb' 4 4

/-- `operand = ir[3:0]` (R61, R83). -/
def operandOf (w : Byte) : Nibble := w.extractLsb' 0 4

/-- `{opcode, operand}` (R61). -/
def joinWord (opcode operand : Nibble) : Byte := opcode ++ operand

/-- The instruction of a mnemonic and an operand field (R62, R63, R64). -/
def Mnemonic.withOperand : Mnemonic → Nibble → Instr
  | .MVRA, r => .mvra r
  | .MVAR, r => .mvar r
  | .LDA, x => .lda x
  | .STA, x => .sta x
  | .MVAH, k => .mvah k
  | .MVAL, k => .mval k
  | .JUMPZ, x => .jumpz x
  | .JUMPN, x => .jumpn x
  | .ADD, r => .add r
  | .SUB, r => .sub r
  | .MUL, r => .mul r
  | .LLS, r => .lls r
  | .LRS, r => .lrs r
  | .AND, r => .and r
  | .OR, r => .or r
  | .XOR, r => .xor r

/-- Why a word is not an instruction: only an opcode without a row of a partial OPMAP (R67). -/
inductive DecodeReject where
  | invalidOpcode (opcode : Nibble)
  deriving DecidableEq, Repr

/-- OPMAP(opcode) (R65): the opcode's first row, if it has one. -/
def opmapAt (opmap : List (Nibble × Mnemonic)) (opcode : Nibble) : Option Mnemonic :=
  opmap.lookup opcode

/-- Decode (R83): total on the 256 words of a total OPMAP (R66); an unmapped opcode is rejected by
name (R67). -/
def decode (opmap : List (Nibble × Mnemonic)) (w : Byte) : Except DecodeReject Instr :=
  match opmapAt opmap (opcodeOf w) with
  | some m => .ok (m.withOperand (operandOf w))
  | none => .error (.invalidOpcode (opcodeOf w))

/-- The opcode OPMAP gives a mnemonic: that of the mnemonic's first row. -/
def opcodeFor (m : Mnemonic) : List (Nibble × Mnemonic) → Option Nibble
  | [] => none
  | (opcode, n) :: rows => if n = m then some opcode else opcodeFor m rows

/-- The word of an instruction (R61, R65); none where OPMAP has no opcode for it. -/
def encode (opmap : List (Nibble × Mnemonic)) (i : Instr) : Option Byte :=
  match opcodeFor i.mnemonic opmap with
  | some opcode => some (joinWord opcode i.operand)
  | none => none

/-- The decoder of CFG0 on a table row's bits. An instruction is one 8-bit word (R60), so bit 0 is
the word's bit 0 and there are no further words. -/
def decodeTableWord (nbits w : Nat) : Option Instr :=
  if nbits ≤ 8 then
    match decode cfg0.opmap (BitVec.ofNat 8 (w % 2 ^ nbits)) with
    | .ok i => some i
    | .error _ => none
  else none

end Sys2Proof
end

