-- ==== Sys2Proof/Machine/State.lean ====
section
/-! DEFINITION. The state of the core (10_state.md R11), the parameters of its step (R27, log entry 1),
the reports (60_exceptions.md R150), the reasons a step can stop, and the state after reset (R170). -/

namespace Sys2Proof.Machine

/-- A memory: its cells in one canonical form, `Memory.wf` of Ops.lean. An unlisted address reads 0. -/
abbrev Memory := List Host.Cell

/-- The five reportable conditions with their info (R150). A report diverts no control. -/
inductive Report where
  /-- Code 1, raised by program load (R151). -/
  | fileOpenFailure
  /-- Code 2, raised by program load, with the line's number (R152). -/
  | malformedLine (line : Nat)
  /-- Code 3, raised by MVAR, with the register id (R153). -/
  | protectedWrite (id : Nibble)
  /-- Code 4, raised by dispatch on an unmapped opcode (R154). -/
  | invalidOpcode (opcode : Nibble)
  /-- Code 5, raised by a register-form instruction, with the register id (R155). -/
  | badRegisterId (id : Nibble)
  deriving DecidableEq, Repr

/-- Why there is no next state. The machine itself has no faults (R159); these are the two situations
in which it takes no step (log entry 3). -/
inductive Fault where
  /-- Raised by `step` in a halted state: a halted machine takes no step (R85). Safe. -/
  | halted
  /-- Raised by `step`, and by the meaning of an instruction that reads its operand, where the operand
  is IN and the host has supplied no value: the machine holds, taking no step (R88). Safe. -/
  | awaitingInput
  deriving DecidableEq, Repr

/-- Why the model gives an instruction no meaning. -/
inductive Refusal where
  /-- Raised by an arm of `exec` with no meaning yet; no arm is left that raises it. Safe. -/
  | notModelled (mnemonic : String)
  deriving DecidableEq, Repr

/-- The machine. R11 gives the state, R27 the parameters of the step, R150 the log. -/
structure State where
  /-- CFG, a parameter of the step (R4, R27). -/
  cfg : Config
  /-- The program counter (R20). -/
  pc : Byte
  /-- The instruction register, the word fetched last (R22). -/
  ir : Byte
  /-- The accumulator (R21). -/
  acc : Byte
  /-- R0 to R(NGPR-1), as many cells as NGPR says (R12). -/
  gpr : List Byte
  /-- The memory-address register (R16). -/
  mema : Byte
  /-- The jump-target register (R17). -/
  insta : Byte
  /-- The input register's cell; it exists if HAS_IN (R19, R92). -/
  inreg : Byte
  /-- The output register's cell; it exists if HAS_OUT (R19). -/
  outreg : Byte
  /-- The data memory (R26). -/
  ram : Memory
  /-- The instruction store, written by program load only (R25). -/
  rom : Memory
  /-- COUNT, the number of loaded instruction words, 0 to 256 (R24). -/
  count : BitVec 9
  /-- The input values supplied by the host and not yet taken, next one first (R27, R92). -/
  input : List Byte
  /-- The reports so far, oldest first (R150, R157): the model's own field (log entry 2). -/
  log : List Report
  deriving DecidableEq, Repr

/-- Reset in a configuration (R170): PC 0 by the source (R30), everything else 0 by the spec's decision
D8 (R33, log entry 4), no program loaded (log entry 7), no input supplied, no report. -/
def State.resetFor (c : Config) : State where
  cfg := c
  pc := 0
  ir := 0
  acc := 0
  gpr := List.replicate c.ngpr 0
  mema := 0
  insta := 0
  inreg := 0
  outreg := 0
  ram := []
  rom := []
  count := 0
  input := []
  log := []

/-- The machine right after reset, in CFG0. -/
def State.reset : State := State.resetFor cfg0

end Sys2Proof.Machine
end

