-- ==== Sys2Proof/Machine/Ops.lean ====
section
/-! DEFINITION. The named operations over memory and registers, the report operation (the machine's only
"exception", 60_exceptions.md R150, R159), the halt check and fetch. -/

namespace Sys2Proof.Machine

/-- What an unlisted address reads as: 0 in ROM (R32) and in RAM (R33, decision D8, log entry 16). -/
def Memory.blank : Byte := 0

/-- The byte at an address. -/
def Memory.read : Memory → Nat → Byte
  | [], _ => Memory.blank
  | (b, v) :: m, a => if a = b then v else Memory.read m a

/-- The memory without an address's entry. -/
def Memory.erase (m : Memory) (a : Nat) : Memory := m.filter fun c => decide (c.1 ≠ a)

/-- The memory with an entry set, the addresses kept rising. -/
def Memory.insert : Memory → Nat → Byte → Memory
  | [], a, v => [(a, v)]
  | (b, w) :: m, a, v =>
    if a < b then (a, v) :: (b, w) :: m
    else if a = b then (a, v) :: m
    else (b, w) :: Memory.insert m a v

/-- Set the byte at an address; the value an unlisted address reads as removes the entry. -/
def Memory.write (m : Memory) (a : Nat) (v : Byte) : Memory :=
  if v = Memory.blank then m.erase a else m.insert a v

/-- The canonical form: addresses rise strictly, lie in the 256 of the memory, and no entry equals what
an unlisted address reads as. -/
abbrev Memory.wf (m : Memory) : Prop :=
  m.Pairwise (fun c d => c.1 < d.1) ∧ ∀ c ∈ m, c.1 < 256 ∧ c.2 ≠ Memory.blank

/-- `RomRead(a)` (20_memory.md R41). -/
def State.romRead (s : State) (a : Byte) : Byte := s.rom.read a.toNat

/-- `MemRead(addr, 1)` (R42). -/
def State.memRead (s : State) (a : Byte) : Byte := s.ram.read a.toNat

/-- `MemWrite(addr, 1, v)` (R43). -/
def State.memWrite (s : State) (a v : Byte) : State := { s with ram := s.ram.write a.toNat v }

/-- `acc <- v` (10_state.md R21). -/
def State.setAcc (s : State) (v : Byte) : State := { s with acc := v }

/-- `pc <- target` (R20). -/
def State.setPc (s : State) (target : Byte) : State := { s with pc := target }

/-- `mema <- v` (R16). -/
def State.setMema (s : State) (v : Byte) : State := { s with mema := v }

/-- `insta <- v` (R17). -/
def State.setInsta (s : State) (v : Byte) : State := { s with insta := v }

/-- `outreg <- v` (R19). -/
def State.setOutreg (s : State) (v : Byte) : State := { s with outreg := v }

/-- `gpr[k]` (R12). A cell that is not there reads 0, in states no run reaches (log entry 14). -/
def State.getGpr (s : State) (k : Nat) : Byte := s.gpr.getD k 0

/-- `gpr[k] <- v` (R12). -/
def State.setGpr (s : State) (k : Nat) (v : Byte) : State := { s with gpr := s.gpr.set k v }

/-- `inreg <- v` with the rest of the input stream left: the effect of taking `v` (R92). -/
def State.takeInput (s : State) (v : Byte) (rest : List Byte) : State :=
  { s with inreg := v, input := rest }

/-- `report <Condition>(info)` (R150): no architectural state changes, control is not diverted. -/
def State.emit (s : State) (r : Report) : State := { s with log := s.log ++ [r] }

/-- The halting condition (40_step_and_register_access.md R81), on the current `pc`. -/
def State.halted (s : State) : Bool :=
  if s.cfg.haltInclusive then decide (s.count < zext9 s.pc) else decide (s.count ≤ zext9 s.pc)

/-- The word the next fetch reads (R82). -/
def State.fetchWord (s : State) : Byte := s.romRead s.pc

/-- Fetch (R82): `ir <- RomRead(pc)`, then `pc <- trunc8(pc + 1)`. -/
def State.fetch (s : State) : State :=
  { s with ir := s.fetchWord, pc := trunc8 ((s.pc.toNat : Int) + 1) }

/-- Dispatch on a rejected word (R67, R154): report it, change nothing else. -/
def State.rejectWord (s : State) : DecodeReject → State
  | .invalidOpcode opcode => s.emit (.invalidOpcode opcode)

end Sys2Proof.Machine
end

