-- ==== Sys2Proof/Machine/Operands.lean ====
section
/-! DEFINITION. The operand forms: the register form with its flat namespace (10_state.md R14, R15;
40_step_and_register_access.md R90 to R93), the literal form (30_encoding.md R63), the shift amount
(44_alu.md R133), the address of LDA and STA (42_memory_ops.md R112), the target of a jump
(43_jumps.md R122), and the input hold (R88). -/

namespace Sys2Proof.Machine

/-- What a register id names (R14): a cell, a wired constant, or nothing. -/
inductive Slot where
  | gpr (k : Nat)
  | mema
  | insta
  | zero
  | one
  | min1
  | inp
  | out
  | invalid
  deriving DecidableEq, Repr

/-- Register resolution (R14, R90): below NGPR a general-purpose register, else SPECIAL; IN and OUT only
in a configuration that has them (R19). -/
def resolve (c : Config) (i : Nibble) : Slot :=
  if i.toNat < c.ngpr then .gpr i.toNat
  else
    match c.special.lookup i with
    | some .mema => .mema
    | some .insta => .insta
    | some .zero => .zero
    | some .one => .one
    | some .min1 => .min1
    | some .inp => if c.hasIn then .inp else .invalid
    | some .out => if c.hasOut then .out else .invalid
    | none => .invalid

/-- `ReadReg(i)` (R90): the value and the state after, or none where IN is read with no value
supplied (R88). Register 0 stands in for an invalid id, with a report. -/
def readReg (i : Nibble) (s : State) : Option (Byte × State) :=
  match resolve s.cfg i with
  | .gpr k => some (s.getGpr k, s)
  | .mema => some (s.mema, s)
  | .insta => some (s.insta, s)
  | .zero => some (0, s)
  | .one => some (1, s)
  | .min1 => some (255, s)
  | .inp =>
    match s.input with
    | v :: rest => some (v, s.takeInput v rest)
    | [] => none
  | .out => some (s.outreg, s)
  | .invalid => some (s.getGpr 0, s.emit (.badRegisterId i))

/-- `WriteReg(i, v)` (R91). The constants and IN are protected; register 0 stands in for an invalid id
(log entry 10). -/
def writeReg (i : Nibble) (v : Byte) (s : State) : State :=
  match resolve s.cfg i with
  | .gpr k => s.setGpr k v
  | .mema => s.setMema v
  | .insta => s.setInsta v
  | .zero => s.emit (.protectedWrite i)
  | .one => s.emit (.protectedWrite i)
  | .min1 => s.emit (.protectedWrite i)
  | .inp => s.emit (.protectedWrite i)
  | .out => s.setOutreg v
  | .invalid => (s.setGpr 0 v).emit (.badRegisterId i)

/-- Run an instruction that reads its register operand: `f` gets the value and the state after the read. -/
def withReg (i : Nibble) (s : State) (f : Byte → State → State) :
    Host.Outcome State Fault Refusal :=
  match readReg i s with
  | some (v, t) => .next (f v t)
  | none => .fault .awaitingInput

/-- `{k, acc[3:0]}`, written `(acc & 0x0F) | (k << 4)` (R63, 41_moves.md R102). -/
def setHighNibble (acc : Byte) (k : Nibble) : Byte := (acc &&& 0x0F) ||| (k.setWidth 8 <<< 4)

/-- `{acc[7:4], k}`, written `(acc & 0xF0) | (k & 0x0F)` (R63, R103). -/
def setLowNibble (acc : Byte) (k : Nibble) : Byte := (acc &&& 0xF0) ||| (k.setWidth 8 &&& 0x0F)

/-- The shift amount `x[r] & 0b111`, 0 to 7 (R133, R134). -/
def shiftAmount (v : Byte) : Nat := (v &&& 0b111).toNat

/-- The effective address of LDA and STA: all of MEMA (R112). -/
def State.effAddr (s : State) : Byte := s.mema

/-- The target of a taken jump: all of INSTA (R122). -/
def State.jumpTarget (s : State) : Byte := s.insta

/-- The operand of the register-form instructions that read it (R62, R88). -/
def readOperand : Instr → Option Nibble
  | .mvra r => some r
  | .mvar _ => none
  | .lda _ => none
  | .sta _ => none
  | .mvah _ => none
  | .mval _ => none
  | .jumpz _ => none
  | .jumpn _ => none
  | .add r => some r
  | .sub r => some r
  | .mul r => some r
  | .lls r => some r
  | .lrs r => some r
  | .and r => some r
  | .or r => some r
  | .xor r => some r

/-- The register id names IN and no input value waits. -/
def State.starved (s : State) (i : Nibble) : Bool :=
  decide (resolve s.cfg i = .inp) && s.input.isEmpty

/-- `InputReady(s)` (R88): false exactly when the instruction at `rom[pc]` reads its operand, the operand
is the id of IN, and no input value waits. -/
def State.inputReady (s : State) : Bool :=
  match decode s.cfg.opmap s.fetchWord with
  | .ok i =>
    match readOperand i with
    | some r => !s.starved r
    | none => true
  | .error _ => true

end Sys2Proof.Machine
end

