-- ==== Sys2Proof/Machine/Flags.lean ====
section
/-! DEFINITION. The machine has no flags (10_state.md R23): nothing is stored and no instruction writes
one. The two conditional jumps test ACC itself; these are the two tests. -/

namespace Sys2Proof.Machine

/-- The test of JUMPZ: `acc == 0` (R23, 43_jumps.md R120). -/
def State.accZero (s : State) : Bool := s.acc == 0

/-- The test of JUMPN: `acc[7] == 1`, the sign bit (R23, R121). -/
def State.accNegative (s : State) : Bool := s.acc.getLsbD 7

end Sys2Proof.Machine
end

