-- ==== Sys2Proof/Machine/Alu.lean ====
section
/-! DEFINITION. Arithmetic and logic (44_alu.md). Arithmetic is on unbounded integers and narrowed by
`trunc8` at the end (00_scope.md R6, R140); no flag exists and the lost bits are lost (R138). -/

namespace Sys2Proof.Machine

/-- `trunc8(acc + x[r])` (R130). -/
def aluAdd (a v : Byte) : Byte := trunc8 ((a.toNat : Int) + (v.toNat : Int))

/-- `trunc8(acc - x[r])`, ACC the minuend (R131). -/
def aluSub (a v : Byte) : Byte := trunc8 ((a.toNat : Int) - (v.toNat : Int))

/-- `trunc8(acc * x[r])` (R132). -/
def aluMul (a v : Byte) : Byte := trunc8 ((a.toNat : Int) * (v.toNat : Int))

/-- `trunc8(acc << n)` with `n = x[r] & 0b111` (R133). -/
def aluLls (a v : Byte) : Byte := trunc8 ((a.toNat : Int) * 2 ^ shiftAmount v)

/-- `acc >> n = floor(acc / 2^n)` with `n = x[r] & 0b111`, zeros entering at bit 7 (R134, R6, the spec's
decision D10, log entry 9). -/
def aluLrs (a v : Byte) : Byte := trunc8 ((a.toNat : Int) / 2 ^ shiftAmount v)

/-- `acc & x[r]` (R135). -/
def aluAnd (a v : Byte) : Byte := a &&& v

/-- `acc | x[r]` (R136). -/
def aluOr (a v : Byte) : Byte := a ||| v

/-- `acc ^ x[r]` (R137). -/
def aluXor (a v : Byte) : Byte := a ^^^ v

/-- The common shape `acc <- f(acc, x[r])` (R138). -/
def aluOp (f : Byte → Byte → Byte) (r : Nibble) (s : State) : Host.Outcome State Fault Refusal :=
  withReg r s fun v t => t.setAcc (f s.acc v)

/-- ADD (R130). -/
def execAdd (r : Nibble) (s : State) : Host.Outcome State Fault Refusal := aluOp aluAdd r s

/-- SUB (R131). -/
def execSub (r : Nibble) (s : State) : Host.Outcome State Fault Refusal := aluOp aluSub r s

/-- MUL (R132). -/
def execMul (r : Nibble) (s : State) : Host.Outcome State Fault Refusal := aluOp aluMul r s

/-- LLS (R133). -/
def execLls (r : Nibble) (s : State) : Host.Outcome State Fault Refusal := aluOp aluLls r s

/-- LRS (R134). -/
def execLrs (r : Nibble) (s : State) : Host.Outcome State Fault Refusal := aluOp aluLrs r s

/-- AND (R135). -/
def execAnd (r : Nibble) (s : State) : Host.Outcome State Fault Refusal := aluOp aluAnd r s

/-- OR (R136). -/
def execOr (r : Nibble) (s : State) : Host.Outcome State Fault Refusal := aluOp aluOr r s

/-- XOR (R137). -/
def execXor (r : Nibble) (s : State) : Host.Outcome State Fault Refusal := aluOp aluXor r s

end Sys2Proof.Machine
end

