-- ==== Sys2Proof/Machine/Jumps.lean ====
section
/-! DEFINITION. JUMPZ and JUMPN (43_jumps.md). The operand field takes no part (30_encoding.md R64). -/

namespace Sys2Proof.Machine

/-- A conditional jump (R122): taken, `pc <- insta`; not taken, `pc` keeps the incremented value. -/
def jumpIf (taken : Bool) (s : State) : State := if taken then s.setPc s.jumpTarget else s

/-- JUMPZ (R120): `if acc == 0 then pc <- insta`. -/
def execJumpz (_x : Nibble) (s : State) : Host.Outcome State Fault Refusal :=
  .next (jumpIf s.accZero s)

/-- JUMPN (R121): `if acc[7] == 1 then pc <- insta`. -/
def execJumpn (_x : Nibble) (s : State) : Host.Outcome State Fault Refusal :=
  .next (jumpIf s.accNegative s)

end Sys2Proof.Machine
end

