-- ==== Sys2Proof/Machine/MemoryOps.lean ====
section
/-! DEFINITION. LDA and STA (42_memory_ops.md). The operand field takes no part (30_encoding.md R64). -/

namespace Sys2Proof.Machine

/-- LDA (R110): `acc <- ram[mema]`. -/
def execLda (_x : Nibble) (s : State) : Host.Outcome State Fault Refusal :=
  .next (s.setAcc (s.memRead s.effAddr))

/-- STA (R111): `ram[mema] <- acc`. -/
def execSta (_x : Nibble) (s : State) : Host.Outcome State Fault Refusal :=
  .next (s.memWrite s.effAddr s.acc)

end Sys2Proof.Machine
end

