-- ==== Sys2Proof/Machine/Moves.lean ====
section
/-! DEFINITION. The moves MVRA, MVAR, MVAH, MVAL (41_moves.md). -/

namespace Sys2Proof.Machine

/-- MVRA (R100): `acc <- x[r]`. -/
def execMvra (r : Nibble) (s : State) : Host.Outcome State Fault Refusal :=
  withReg r s fun v t => t.setAcc v

/-- MVAR (R101): `x[r] <- acc`, suppressed on a protected register. -/
def execMvar (r : Nibble) (s : State) : Host.Outcome State Fault Refusal :=
  .next (writeReg r s.acc s)

/-- MVAH (R102): `acc <- (acc & 0x0F) | (k << 4)`. -/
def execMvah (k : Nibble) (s : State) : Host.Outcome State Fault Refusal :=
  .next (s.setAcc (setHighNibble s.acc k))

/-- MVAL (R103): `acc <- (acc & 0xF0) | (k & 0x0F)`. -/
def execMval (k : Nibble) (s : State) : Host.Outcome State Fault Refusal :=
  .next (s.setAcc (setLowNibble s.acc k))

end Sys2Proof.Machine
end

