-- ==== Sys2Proof/Machine/Dispatch.lean ====
section
/-! DEFINITION. Dispatch (40_step_and_register_access.md R84): each instruction performs exactly its one rule. -/

namespace Sys2Proof.Machine

def exec (i : Instr) (s : State) : Host.Outcome State Fault Refusal :=
  match i with
  | .mvra r => Sys2Proof.Machine.execMvra r s
  | .mvar r => Sys2Proof.Machine.execMvar r s
  | .lda x => Sys2Proof.Machine.execLda x s
  | .sta x => Sys2Proof.Machine.execSta x s
  | .mvah k => Sys2Proof.Machine.execMvah k s
  | .mval k => Sys2Proof.Machine.execMval k s
  | .jumpz x => Sys2Proof.Machine.execJumpz x s
  | .jumpn x => Sys2Proof.Machine.execJumpn x s
  | .add r => Sys2Proof.Machine.execAdd r s
  | .sub r => Sys2Proof.Machine.execSub r s
  | .mul r => Sys2Proof.Machine.execMul r s
  | .lls r => Sys2Proof.Machine.execLls r s
  | .lrs r => Sys2Proof.Machine.execLrs r s
  | .and r => Sys2Proof.Machine.execAnd r s
  | .or r => Sys2Proof.Machine.execOr r s
  | .xor r => Sys2Proof.Machine.execXor r s

end Sys2Proof.Machine
end

