-- ==== Sys2Proof/Machine/Step.lean ====
section
/-! DEFINITION. The step (40_step_and_register_access.md R80): halt check, input hold, fetch, decode,
execute, as one atomic transition (00_scope.md R8). -/

namespace Sys2Proof.Machine

/-- One fetch-decode-execute step (R80). A halted machine and a machine holding for input take none
(R85, R88, log entry 3). -/
def step (s : State) : Host.Outcome State Fault Refusal :=
  if s.halted then .fault .halted
  else if !s.inputReady then .fault .awaitingInput
  else
    match decode s.cfg.opmap s.fetchWord with
    | .ok i => exec i s.fetch
    | .error r => .next (s.fetch.rejectWord r)

/-- `s` with an instruction word placed where the next fetch reads, `rom[pc]`, and COUNT raised where
needed so that `pc` lies inside the loaded program: what a program load does for that word (R172, R179,
log entry 7). -/
def State.withFetchWord (s : State) (nbits w : Nat) : State :=
  { s with
    rom := s.rom.write s.pc.toNat (BitVec.ofNat 8 (w % 2 ^ nbits))
    count := if s.count ≤ zext9 s.pc then zext9 s.pc + 1 else s.count }

end Sys2Proof.Machine
end

