-- ==== Sys2Proof/Machine/Loader.lean ====
section
/-! DEFINITION. Program load (70_reset_and_hazards.md R171 to R181): from the text of a program file to
the ROM image, COUNT and the load's reports. The file is a list of characters, or none where it cannot be
opened. -/

namespace Sys2Proof.Machine

/-- The lines of a text, first line first; a line ends at a line feed (R173, decision D13). A line feed at
the very end of the text begins no further line (log entry 12). -/
def splitLines : List Char → List (List Char)
  | [] => []
  | c :: cs =>
    if c = '\n' then [] :: splitLines cs
    else
      match splitLines cs with
      | [] => [[c]]
      | l :: ls => (c :: l) :: ls

/-- The bits of a line, at most `room` of them, in the order scanned (R174, R176): scanning stops at
the last bit wanted, at `;` and at the line's end; any other character is skipped. -/
def scanBits : Nat → List Char → List Bool
  | 0, _ => []
  | _ + 1, [] => []
  | room + 1, c :: cs =>
    if c = ';' then []
    else if c = '1' then true :: scanBits room cs
    else if c = '0' then false :: scanBits room cs
    else scanBits (room + 1) cs

/-- The word built from bits scanned high bit first (R174, R175): each new bit enters at bit 0. -/
def packBits (bits : List Bool) : Byte :=
  bits.foldl (fun w b => (w <<< 1) ||| (if b then 1 else 0)) 0

/-- The word of a short line under policy (a), filled with zeros on the side PAD_SIDE leaves (R178, U6). -/
def padWord (side : PadSide) (bits : List Bool) : Byte :=
  match side with
  | .bitsLow => packBits bits
  | .bitsHigh => packBits (bits ++ List.replicate (8 - bits.length) false)

/-- The word a line stores, if it stores one: policy (b) takes 8 bits or nothing (R177), policy (a)
whatever was assembled (R178). -/
def lineWord (c : Config) (bits : List Bool) : Option Byte :=
  if bits.length = 8 then some (packBits bits)
  else if c.loaderStrict then none
  else some (padWord c.padSide bits)

/-- The report of a line: MalformedLine for a rejected line with at least one bit (R152, R177); a line
that stores a word is not reported (log entry 11). -/
def lineReports (c : Config) (number : Nat) (bits : List Bool) : List Report :=
  if (lineWord c bits).isNone && !bits.isEmpty then [.malformedLine number] else []

/-- What a load yields (R172): the words in file order, and the reports. -/
structure Image where
  words : List Byte
  reports : List Report
  deriving DecidableEq, Repr

/-- Read lines from line number `number` on while `room` words may still be stored (R180). A line that
stores nothing takes no ROM index (R173). -/
def loadLines (c : Config) : Nat → Nat → List (List Char) → Image
  | _, _, [] => ⟨[], []⟩
  | _, 0, _ :: _ => ⟨[], []⟩
  | number, room + 1, l :: ls =>
    let bits := scanBits 8 l
    match lineWord c bits with
    | some w =>
      let rest := loadLines c (number + 1) room ls
      ⟨w :: rest.words, lineReports c number bits ++ rest.reports⟩
    | none =>
      let rest := loadLines c (number + 1) (room + 1) ls
      ⟨rest.words, lineReports c number bits ++ rest.reports⟩

/-- The loader: 256 words at most (R180); a file that cannot be opened is reported and loads nothing
(R181). -/
def loadFile (c : Config) : Option (List Char) → Image
  | none => ⟨[], [.fileOpenFailure]⟩
  | some text => loadLines c 1 256 (splitLines text)

/-- The ROM holding words from an index on, everything else zero (R179). -/
def romFrom : Nat → List Byte → Memory
  | _, [] => []
  | k, w :: ws => if w = Memory.blank then romFrom (k + 1) ws else (k, w) :: romFrom (k + 1) ws

/-- Store an image: the words from ROM index 0, COUNT their number, the load's reports logged (R172,
R179). -/
def State.store (s : State) (im : Image) : State :=
  { s with
    rom := romFrom 0 im.words
    count := BitVec.ofNat 9 im.words.length
    log := s.log ++ im.reports }

/-- Reset followed by program load (R170, R171): the state in which a run begins. -/
def State.boot (c : Config) (file : Option (List Char)) : State :=
  (State.resetFor c).store (loadFile c file)

end Sys2Proof.Machine
end

