-- ==== Sys2Proof/Machine/Listing.lean ====
section
/-! DEFINITION. The text forms of instructions: the listing syntax (30_encoding.md R69), the program file
(R71), and the idioms of R70. None of them is machine state; the loader reads the program file only. -/

namespace Sys2Proof.Machine

/-- The name of the register an id selects: `Rk`, a special register's name, or `idN` (R69). -/
def registerText (c : Config) (r : Nibble) : String :=
  match resolve c r with
  | .gpr k => "R" ++ toString k
  | .mema => "MEMA"
  | .insta => "INSTA"
  | .zero => "ZERO"
  | .one => "ONE"
  | .min1 => "MIN1"
  | .inp => "IN"
  | .out => "OUT"
  | .invalid => "id" ++ toString r.toNat

/-- A literal, `#` and its decimal number (R69). -/
def literalText (k : Nibble) : String := "#" ++ toString k.toNat

/-- An instruction as a listing writes it (R69, decision D20). LDA, STA, JUMPZ and JUMPN have no operand. -/
def listing (c : Config) : Instr → String
  | .mvra r => "MVRA " ++ registerText c r
  | .mvar r => "MVAR " ++ registerText c r
  | .lda _ => "LDA"
  | .sta _ => "STA"
  | .mvah k => "MVAH " ++ literalText k
  | .mval k => "MVAL " ++ literalText k
  | .jumpz _ => "JUMPZ"
  | .jumpn _ => "JUMPN"
  | .add r => "ADD " ++ registerText c r
  | .sub r => "SUB " ++ registerText c r
  | .mul r => "MUL " ++ registerText c r
  | .lls r => "LLS " ++ registerText c r
  | .lrs r => "LRS " ++ registerText c r
  | .and r => "AND " ++ registerText c r
  | .or r => "OR " ++ registerText c r
  | .xor r => "XOR " ++ registerText c r

/-- A bit of a word as a character of the program file (R71). -/
def bitChar (w : Byte) (j : Nat) : Char := if w.getLsbD j then '1' else '0'

/-- The line of a word in the program file, bit 7 first (R71). -/
def bitLine (w : Byte) : List Char :=
  [bitChar w 7, bitChar w 6, bitChar w 5, bitChar w 4, bitChar w 3, bitChar w 2, bitChar w 1, bitChar w 0]

/-- The program file of a list of words, one a line (R71). -/
def programText (words : List Byte) : List Char := words.flatMap fun w => bitLine w ++ ['\n']

/-- The pair that loads a constant byte into ACC (R70). -/
def loadConstant (v : Byte) : List Instr := [.mvah (opcodeOf v), .mval (operandOf v)]

/-- Clear ACC, in CFG0 (R70). -/
def clearAcc : Instr := .mvra 10

/-- Jump to the address in INSTA, in CFG0; it destroys ACC (R70). -/
def jumpAlways : List Instr := [.mvra 10, .jumpz 0]

end Sys2Proof.Machine
end

