-- ==== Sys2Proof/Machine/Ports.lean ====
section
/-! DEFINITION. What the host does to the core and sees of it (70_reset_and_hazards.md R184 to R187). The
port list R184 is the spec's decision D15 and not normative (log entry 18); the clock is out of scope
(00_scope.md R3). -/

namespace Sys2Proof.Machine

/-- The host resets the core (R170, R185): every field as `State.resetFor` has it, in the machine's own
configuration. -/
def State.hostReset (s : State) : State := State.resetFor s.cfg

/-- The host supplies one input value, at any time (R88, R92, R185). -/
def State.supplyInput (s : State) (v : Byte) : State := { s with input := s.input ++ [v] }

/-- `load_we`, `load_addr`, `load_data`: `rom[load_addr] <- load_data`, before the first step (R184). -/
def State.loadWord (s : State) (a v : Byte) : State := { s with rom := s.rom.write a.toNat v }

/-- `load_count` (R184). -/
def State.loadCount (s : State) (n : BitVec 9) : State := { s with count := n }

/-- What the core hands over after halt: R186's list, and the two optional cells, `none` where the
configuration lacks the cell. `inreg` is R92's "visible only to the host after halt". R186 and R165 do not
name `outreg`: handing it over is the model's choice (DESIGN CHOICE, log entry 22), after C9, which makes
it behave exactly like a general-purpose register. -/
structure Handover where
  gpr : List Byte
  insta : Byte
  mema : Byte
  ir : Byte
  pc : Byte
  acc : Byte
  ram : Memory
  inreg : Option Byte
  outreg : Option Byte
  deriving DecidableEq, Repr

/-- Read access after halt; a run that has not halted hands nothing over (R186). The optional cells are
handed over exactly where the configuration has them (R92; log entry 22). -/
def State.handover (s : State) : Option Handover :=
  if s.halted then
    some
      { gpr := s.gpr, insta := s.insta, mema := s.mema, ir := s.ir, pc := s.pc, acc := s.acc, ram := s.ram
        inreg := if s.cfg.hasIn then some s.inreg else none
        outreg := if s.cfg.hasOut then some s.outreg else none }
  else none

/-- `halted` and `in_ready` (R184): `in_ready` is high while the core holds for input. -/
def State.haltedPort (s : State) : Bool := s.halted

def State.inReadyPort (s : State) : Bool := !s.halted && !s.inputReady

/-- `dbg_reg_data`: `gpr[dbg_reg_sel]`, with no id resolution and no side effect (R184, R186). -/
def State.dbgReg (s : State) (sel : Nibble) : Byte := s.getGpr sel.toNat

/-- `dbg_ram_data`, for the host after halt (R184). -/
def State.dbgRam (s : State) (a : Byte) : Option Byte := if s.halted then some (s.memRead a) else none

/-- The numeric code of a report (60_exceptions.md R150). -/
def Report.code : Report → BitVec 3
  | .fileOpenFailure => 1
  | .malformedLine _ => 2
  | .protectedWrite _ => 3
  | .invalidOpcode _ => 4
  | .badRegisterId _ => 5

/-- `report_code` and `report_info` of a step's report; load-time reports are not on the port (R184). -/
def Report.port : Report → Option (BitVec 3 × Nibble)
  | .fileOpenFailure => none
  | .malformedLine _ => none
  | .protectedWrite id => some (3, id)
  | .invalidOpcode opcode => some (4, opcode)
  | .badRegisterId id => some (5, id)

/-- The report port of the step from `s` to `t` (R184, R93): the report it added to the log, if any. -/
def reportPort (s t : State) : Option (BitVec 3 × Nibble) :=
  match t.log.drop s.log.length with
  | [] => none
  | r :: _ => r.port

end Sys2Proof.Machine
end

