-- ==== Sys2Proof/Safety.lean ====
section
/-! DEFINITION. The terms claims are stated in: the invariant of the machine, runs and their end
(40_step_and_register_access.md R86, 70_reset_and_hazards.md R187), clean runs (60_exceptions.md R150),
and what the spec's tables say a register id reads as and where a write to it goes (R15, R90, R91), as
relations written from those tables and not from `readReg` and `writeReg`. -/

namespace Sys2Proof.Machine

/-- The invariant: a legal configuration (R4), as many general-purpose registers as NGPR says (R12),
both memories in canonical form, COUNT at most 256 (R24), ROM zero from COUNT on (R25), and no value in
an optional cell the configuration lacks (R19). -/
structure StateInv (s : State) : Prop where
  legal : s.cfg.legal
  gprCells : s.gpr.length = s.cfg.ngpr
  ramWf : Memory.wf s.ram
  romWf : Memory.wf s.rom
  countMax : s.count.toNat ≤ 256
  romBeyond : ∀ c ∈ s.rom, c.1 < s.count.toNat
  noIn : s.cfg.hasIn = false → s.inreg = 0
  noOut : s.cfg.hasOut = false → s.outreg = 0

/-- `t` follows `s` by some number of steps (R86). -/
inductive Steps : State → State → Prop where
  | refl (s : State) : Steps s s
  | tail {s t u : State} : Steps s t → step t = .next u → Steps s u

/-- A run from `s` ends in `t`: the first state in which Halted holds (R187). -/
def EndsIn (s t : State) : Prop := Steps s t ∧ t.halted = true

/-- A run from `s` to `t` was clean: no report was emitted on the way (R150). -/
def Clean (s t : State) : Prop := Steps s t ∧ t.log = s.log

/-- The register id is a general-purpose index (R12). -/
def IsGpr (c : Config) (r : Nibble) : Prop := r.toNat < c.ngpr

/-- The register id is mapped to a special register the configuration has (R14, R19). -/
def IsSpecial (c : Config) (r : Nibble) (q : Special) : Prop :=
  ¬ IsGpr c r ∧ c.special.lookup r = some q ∧
  (q = .inp → c.hasIn = true) ∧ (q = .out → c.hasOut = true)

/-- The register id is invalid (R14): neither a general-purpose index nor mapped to a register the
configuration has. -/
def IsInvalid (c : Config) (r : Nibble) : Prop :=
  ¬ IsGpr c r ∧
  (c.special.lookup r = none ∨ (c.special.lookup r = some .inp ∧ c.hasIn = false) ∨
    (c.special.lookup r = some .out ∧ c.hasOut = false))

/-- A register read through the id `r` can complete: it is not a read of IN with no input value
waiting (R88). -/
def Readable (s : State) (r : Nibble) : Prop := ¬ (IsSpecial s.cfg r .inp ∧ s.input = [])

/-- The table of R90: reading `r` in `s` gives `v` and leaves the state `t`. -/
inductive Reads (s : State) (r : Nibble) : Byte → State → Prop where
  | gpr : IsGpr s.cfg r → Reads s r (s.getGpr r.toNat) s
  | mema : IsSpecial s.cfg r .mema → Reads s r s.mema s
  | insta : IsSpecial s.cfg r .insta → Reads s r s.insta s
  | zero : IsSpecial s.cfg r .zero → Reads s r 0 s
  | one : IsSpecial s.cfg r .one → Reads s r 1 s
  | min1 : IsSpecial s.cfg r .min1 → Reads s r 255 s
  | inp (v : Byte) (rest : List Byte) : IsSpecial s.cfg r .inp → s.input = v :: rest →
      Reads s r v { s with inreg := v, input := rest }
  | out : IsSpecial s.cfg r .out → Reads s r s.outreg s
  | invalid : IsInvalid s.cfg r →
      Reads s r (s.getGpr 0) { s with log := s.log ++ [.badRegisterId r] }

/-- The table of R91: writing `v` to `r` in `s` leaves the state `t`. -/
inductive Writes (s : State) (r : Nibble) (v : Byte) : State → Prop where
  | gpr : IsGpr s.cfg r → Writes s r v { s with gpr := s.gpr.set r.toNat v }
  | mema : IsSpecial s.cfg r .mema → Writes s r v { s with mema := v }
  | insta : IsSpecial s.cfg r .insta → Writes s r v { s with insta := v }
  | guarded (q : Special) : q ∈ [Special.zero, .one, .min1, .inp] → IsSpecial s.cfg r q →
      Writes s r v { s with log := s.log ++ [.protectedWrite r] }
  | out : IsSpecial s.cfg r .out → Writes s r v { s with outreg := v }
  | invalid : IsInvalid s.cfg r →
      Writes s r v { s with gpr := s.gpr.set 0 v, log := s.log ++ [.badRegisterId r] }

end Sys2Proof.Machine
end

