-- ==== Sys2Proof/Certificates/Slice0/Obligations.lean ====
section
/-! DEFINITION. The statements for the provers. Register ids are spoken of through `IsGpr`, `IsSpecial`,
`IsInvalid`, `Reads` and `Writes` of Safety.lean, so a statement holds in every configuration and for
every form; where it fixes CFG0, its docstring names the spec's decision. -/

open Sys2Proof Sys2Proof.Machine

/-! ## Encoding -/

/-- For every bijective OPMAP and every instruction, with every operand value, the encoder gives a word
and the decoder reads the instruction back from it (30_encoding.md R61, R65). -/
def Obligations.EncodedInstructionDecodesToItself : Prop :=
  ∀ (c : Config), c.opmapLegal → ∀ i : Instr,
    ∃ w, encode c.opmap i = some w ∧ decode c.opmap w = .ok i

/-- For every bijective OPMAP every one of the 256 words decodes to an instruction, which is well-formed
and encodes to that word: no illegal word, no reserved opcode (R66). -/
def Obligations.EveryWordDecodesAndEncodesBack : Prop :=
  ∀ (c : Config), c.opmapLegal → ∀ w : Byte,
    ∃ i, decode c.opmap w = .ok i ∧ i.wf c ∧ encode c.opmap i = some w

/-- In a partial OPMAP too, an instruction that has an opcode is read back from its word (R67). -/
def Obligations.PartialMapEncodingDecodesBack : Prop :=
  ∀ (c : Config), c.opmapPartial → ∀ i : Instr, i.wf c →
    ∃ w, encode c.opmap i = some w ∧ decode c.opmap w = .ok i

/-- Words of every family, written out from 30_encoding.md R65, decode in CFG0 to the instruction they
stand for. The numbers other than 0 are the spec's decision D1 (log entry 5). -/
def Obligations.WordsOfEveryFamilyDecode : Prop :=
  decode cfg0.opmap 0b00000011 = .ok (.mvra 3) ∧ decode cfg0.opmap 0b00011010 = .ok (.mvar 10) ∧
  decode cfg0.opmap 0b00101111 = .ok (.lda 15) ∧ decode cfg0.opmap 0b00110000 = .ok (.sta 0) ∧
  decode cfg0.opmap 0b01000101 = .ok (.mvah 5) ∧ decode cfg0.opmap 0b01011010 = .ok (.mval 10) ∧
  decode cfg0.opmap 0b01100000 = .ok (.jumpz 0) ∧ decode cfg0.opmap 0b01110000 = .ok (.jumpn 0) ∧
  decode cfg0.opmap 0b10000001 = .ok (.add 1) ∧ decode cfg0.opmap 0b10010010 = .ok (.sub 2) ∧
  decode cfg0.opmap 0b10111100 = .ok (.lls 12) ∧ decode cfg0.opmap 0b11110110 = .ok (.xor 6)

/-! ## The step -/

/-- When the word at `rom[pc]` decodes to `i`, and the machine is neither halted nor holding for input, a
step is `exec i` of the state fetch leaves: `ir` the word, `pc` incremented modulo 256
(40_step_and_register_access.md R80, R82, R83, R84). -/
def Obligations.StepRunsDecodedInstruction : Prop :=
  ∀ (s : State) (i : Instr), s.halted = false → s.inputReady = true →
    decode s.cfg.opmap (s.rom.read s.pc.toNat) = .ok i →
    step s = exec i { s with ir := s.rom.read s.pc.toNat, pc := s.pc + 1 }

/-- An unmapped opcode of a partial OPMAP: `ir` and `pc` change as by fetch, InvalidOpcode is reported,
nothing else changes; under a bijective OPMAP no step reports it (R67, R154). -/
def Obligations.UnmappedOpcodeReportsAndContinues : Prop :=
  (∀ s : State, s.halted = false →
    s.cfg.opmap.lookup (opcodeOf (s.rom.read s.pc.toNat)) = none →
    step s = .next { s with
      ir := s.rom.read s.pc.toNat, pc := s.pc + 1,
      log := s.log ++ [.invalidOpcode (opcodeOf (s.rom.read s.pc.toNat))] }) ∧
  (∀ (s t : State) (opcode : Nibble), s.cfg.opmapLegal → step s = .next t →
    t.log ≠ s.log ++ [.invalidOpcode opcode])

/-- The halting condition on the numbers `pc` and `count`, in both forms (R81; which form CFG0 takes is
the spec's decision D6, log entry 6). -/
def Obligations.HaltedComparesPcWithCount : Prop :=
  ∀ s : State,
    (s.cfg.haltInclusive = true → (s.halted = true ↔ s.pc.toNat > s.count.toNat)) ∧
    (s.cfg.haltInclusive = false → (s.halted = true ↔ s.pc.toNat ≥ s.count.toNat))

/-- The stop `halted` is answered exactly in the halted states, and by no instruction (R85; the stop as
the answer is the model's choice, log entry 3). -/
def Obligations.OnlyHaltedStatesStopAsHalted : Prop :=
  (∀ s : State, step s = .fault .halted ↔ s.halted = true) ∧
  (∀ (i : Instr) (s : State), exec i s ≠ .fault .halted)

/-- A machine that is not halted holds exactly when the instruction at `rom[pc]` reads its operand, the
operand is the id of IN, and no input value waits; a supplied value lifts the hold (R88, decision D4, log
entry 13). -/
def Obligations.HoldsExactlyOnReadOfEmptyInput : Prop :=
  ∀ s : State, s.halted = false →
    ((step s = .fault .awaitingInput ↔
      ∃ (i : Instr) (r : Nibble), decode s.cfg.opmap (s.rom.read s.pc.toNat) = .ok i ∧
        i ∈ [.mvra r, .add r, .sub r, .mul r, .lls r, .lrs r, .and r, .or r, .xor r] ∧
        IsSpecial s.cfg r .inp ∧ s.input = []) ∧
     ∀ v : Byte, ∃ t, step (s.supplyInput v) = .next t)

/-- Every instruction completes in every state, except a register read of IN with no input value waiting;
in particular every instruction completes wherever there is no input register. No instruction and no
step is refused (60_exceptions.md R159, R158). That such a read waits is the spec's decision D4 (R88), and
that `exec` answers the stop `awaitingInput` there is the model's choice (log entries 3 and 13). -/
def Obligations.EveryInstructionCompletes : Prop :=
  (∀ (i : Instr) (s : State), s.cfg.hasIn = false → ∃ t, exec i s = .next t) ∧
  (∀ (i : Instr) (s : State), (∃ t, exec i s = .next t) ∨
    (exec i s = .fault .awaitingInput ∧ ∃ r,
      i ∈ [.mvra r, .add r, .sub r, .mul r, .lls r, .lrs r, .and r, .or r, .xor r] ∧ ¬ Readable s r)) ∧
  (∀ (s : State) (e : Refusal), step s ≠ .refused e)

/-- IR is written by every step with the word at the old `pc`; no instruction writes it; a step does not
depend on its old value; no instruction reads it (10_state.md R22). -/
def Obligations.IrHoldsTheFetchedWordAndIsNeverRead : Prop :=
  (∀ s t : State, step s = .next t → t.ir = s.rom.read s.pc.toNat) ∧
  (∀ (i : Instr) (s t : State), exec i s = .next t → t.ir = s.ir) ∧
  (∀ (s : State) (w : Byte), step { s with ir := w } = step s) ∧
  (∀ (i : Instr) (s t : State) (w : Byte), exec i s = .next t →
    exec i { s with ir := w } = .next { t with ir := w })

/-- PC is the ROM index of the word fetch takes; it is written by the fetch increment in every step, 255
wrapping to 0, and by a taken JUMPZ or JUMPN, which sets it to INSTA and so overrides the increment;
nothing else writes it, and no instruction reads it (R20). -/
def Obligations.PcWrittenOnlyByFetchAndTakenJumps : Prop :=
  (∀ s : State, s.fetch.ir = s.rom.read s.pc.toNat ∧
    s.fetch.pc.toNat = (s.pc.toNat + 1) % 256) ∧
  (∀ s t : State, step s = .next t → t.pc ≠ s.pc + 1 → t.pc = s.insta ∧ ∃ x,
    (decode s.cfg.opmap (s.rom.read s.pc.toNat) = .ok (.jumpz x) ∧ s.acc = 0) ∨
    (decode s.cfg.opmap (s.rom.read s.pc.toNat) = .ok (.jumpn x) ∧ 128 ≤ s.acc.toNat)) ∧
  (∀ (i : Instr) (s t : State), exec i s = .next t → t.pc ≠ s.pc → t.pc = s.insta ∧ ∃ x,
    (i = .jumpz x ∧ s.acc = 0) ∨ (i = .jumpn x ∧ 128 ≤ s.acc.toNat)) ∧
  (∀ (s : State) (x : Nibble),
    (s.acc = 0 → ∃ t, exec (.jumpz x) s = .next t ∧ t.pc = s.insta) ∧
    (128 ≤ s.acc.toNat → ∃ t, exec (.jumpn x) s = .next t ∧ t.pc = s.insta)) ∧
  (∀ (s t : State) (x : Nibble), step s = .next t →
    (decode s.cfg.opmap (s.rom.read s.pc.toNat) = .ok (.jumpz x) ∧ s.acc = 0) ∨
    (decode s.cfg.opmap (s.rom.read s.pc.toNat) = .ok (.jumpn x) ∧ 128 ≤ s.acc.toNat) →
    t.pc = s.insta) ∧
  (∀ (i : Instr) (s t : State) (p : Byte), exec i s = .next t →
    ∃ q, exec i { s with pc := p } = .next { t with pc := q })

/-! ## The register namespace -/

/-- `ReadReg` meets the table of R90 in every configuration: it completes exactly as `Reads` says, and
waits exactly on IN with no input value (R90, R92, R88; decisions D4 and D11, log entries 10 and 13). -/
def Obligations.RegisterReadMeetsTable : Prop :=
  (∀ (s t : State) (r : Nibble) (v : Byte), readReg r s = some (v, t) ↔ Reads s r v t) ∧
  (∀ (s : State) (r : Nibble), readReg r s = none ↔ ¬ Readable s r)

/-- `WriteReg` meets the table of R91 in every configuration (decision D11, log entry 10). -/
def Obligations.RegisterWriteMeetsTable : Prop :=
  ∀ (s t : State) (r : Nibble) (v : Byte), writeReg r v s = t ↔ Writes s r v t

/-- The namespace of CFG0, id by id (R15): ids 0 to 7 the registers R0 to R7, then MEMA, INSTA, ZERO,
ONE, MIN1, and 13 to 15 invalid. The ids are the spec's decisions D2 and D3 (log entry 5). -/
def Obligations.NamespaceOfCfg0 : Prop :=
  ∀ s : State, s.cfg = cfg0 →
    (∀ r : Nibble, r.toNat ≤ 7 → readReg r s = some (s.gpr.getD r.toNat 0, s) ∧
      ∀ v, writeReg r v s = { s with gpr := s.gpr.set r.toNat v }) ∧
    readReg 8 s = some (s.mema, s) ∧ readReg 9 s = some (s.insta, s) ∧
    readReg 10 s = some (0, s) ∧ readReg 11 s = some (1, s) ∧ readReg 12 s = some (255, s) ∧
    (∀ v, writeReg 8 v s = { s with mema := v }) ∧ (∀ v, writeReg 9 v s = { s with insta := v }) ∧
    (∀ r : Nibble, 10 ≤ r.toNat → r.toNat ≤ 12 →
      ∀ v, writeReg r v s = { s with log := s.log ++ [.protectedWrite r] }) ∧
    (∀ r : Nibble, 13 ≤ r.toNat →
      readReg r s = some (s.gpr.getD 0 0, { s with log := s.log ++ [.badRegisterId r] }) ∧
      ∀ v, writeReg r v s = { s with gpr := s.gpr.set 0 v, log := s.log ++ [.badRegisterId r] })

/-- The constant registers: a read gives 0, 1, 255 in every state and changes nothing, so also after any
step; MVAR to one changes nothing and reports; no other instruction attempts a write (10_state.md R18). -/
def Obligations.ConstantRegistersAreWired : Prop :=
  (∀ (s : State) (r : Nibble),
    (IsSpecial s.cfg r .zero → readReg r s = some (0, s)) ∧
    (IsSpecial s.cfg r .one → readReg r s = some (1, s)) ∧
    (IsSpecial s.cfg r .min1 → readReg r s = some (255, s))) ∧
  (∀ (s : State) (r : Nibble) (q : Special), q ∈ [Special.zero, .one, .min1] →
    IsSpecial s.cfg r q →
    exec (.mvar r) s = .next { s with log := s.log ++ [.protectedWrite r] }) ∧
  (∀ (s t : State) (r : Nibble) (q : Special), step s = .next t → IsSpecial s.cfg r q →
    IsSpecial t.cfg r q) ∧
  (∀ (i : Instr) (s t : State) (r : Nibble), exec i s = .next t →
    t.log = s.log ++ [.protectedWrite r] → i = .mvar r)

/-- The general-purpose registers are written by MVAR only, and LDA, STA, JUMPZ, JUMPN, MVAH and MVAL do
not depend on them (R13). -/
def Obligations.GprWrittenOnlyByMvar : Prop :=
  (∀ (i : Instr) (s t : State), exec i s = .next t → t.gpr ≠ s.gpr → ∃ r, i = .mvar r) ∧
  (∀ (i : Instr) (s t : State) (x : Nibble) (g : List Byte),
    i ∈ [.lda x, .sta x, .jumpz x, .jumpn x, .mvah x, .mval x] → exec i s = .next t →
    exec i { s with gpr := g } = .next { t with gpr := g })

/-- MEMA: written by MVAR with its id, with any value, and by nothing else; read as the RAM address by
LDA and STA, and through its id by MVRA and the eight ALU instructions; LDA and STA leave it (R16, with
the results of R100 and R130 to R137). That LRS is logical is the spec's decision D10 (log entry 9). -/
def Obligations.MemaWrittenOnlyThroughItsId : Prop :=
  (∀ (i : Instr) (s t : State), exec i s = .next t → t.mema ≠ s.mema →
    ∃ r, i = .mvar r ∧ IsSpecial s.cfg r .mema) ∧
  (∀ (s : State) (r : Nibble), IsSpecial s.cfg r .mema →
    exec (.mvar r) s = .next { s with mema := s.acc } ∧
    readReg r s = some (s.mema, s) ∧
    exec (.mvra r) s = .next { s with acc := s.mema } ∧
    exec (.add r) s = .next { s with acc := s.acc + s.mema } ∧
    exec (.sub r) s = .next { s with acc := s.acc - s.mema } ∧
    exec (.mul r) s = .next { s with acc := s.acc * s.mema } ∧
    exec (.lls r) s = .next { s with acc := s.acc <<< (s.mema.toNat % 8) } ∧
    exec (.lrs r) s = .next { s with acc := s.acc >>> (s.mema.toNat % 8) } ∧
    exec (.and r) s = .next { s with acc := s.acc &&& s.mema } ∧
    exec (.or r) s = .next { s with acc := s.acc ||| s.mema } ∧
    exec (.xor r) s = .next { s with acc := s.acc ^^^ s.mema }) ∧
  (∀ (s : State) (x : Nibble),
    exec (.lda x) s = .next { s with acc := s.ram.read s.mema.toNat } ∧
    exec (.sta x) s = .next { s with ram := s.ram.write s.mema.toNat s.acc })

/-- INSTA: written by MVAR with its id, with any value, and by nothing else; copied to `pc` by a taken
jump, which does not change it; read through its id by MVRA and the eight ALU instructions (R17, with the
results of R100 and R130 to R137). That LRS is logical is the spec's decision D10 (log entry 9). -/
def Obligations.InstaWrittenOnlyThroughItsId : Prop :=
  (∀ (i : Instr) (s t : State), exec i s = .next t → t.insta ≠ s.insta →
    ∃ r, i = .mvar r ∧ IsSpecial s.cfg r .insta) ∧
  (∀ (s : State) (r : Nibble), IsSpecial s.cfg r .insta →
    exec (.mvar r) s = .next { s with insta := s.acc } ∧
    exec (.mvra r) s = .next { s with acc := s.insta } ∧
    exec (.add r) s = .next { s with acc := s.acc + s.insta } ∧
    exec (.sub r) s = .next { s with acc := s.acc - s.insta } ∧
    exec (.mul r) s = .next { s with acc := s.acc * s.insta } ∧
    exec (.lls r) s = .next { s with acc := s.acc <<< (s.insta.toNat % 8) } ∧
    exec (.lrs r) s = .next { s with acc := s.acc >>> (s.insta.toNat % 8) } ∧
    exec (.and r) s = .next { s with acc := s.acc &&& s.insta } ∧
    exec (.or r) s = .next { s with acc := s.acc ||| s.insta } ∧
    exec (.xor r) s = .next { s with acc := s.acc ^^^ s.insta }) ∧
  (∀ (s : State) (x : Nibble),
    (s.acc = 0 → exec (.jumpz x) s = .next { s with pc := s.insta }) ∧
    (128 ≤ s.acc.toNat → exec (.jumpn x) s = .next { s with pc := s.insta }))

/-! ## Moves -/

/-- MVRA puts the value its register reads as into ACC; nothing else changes but what the read itself does
(41_moves.md R100, with the table of R90: decisions D4, D11). -/
def Obligations.MvraCompletes : Prop :=
  ∀ (s : State) (r : Nibble), Readable s r →
    ∃ v t, Reads s r v t ∧ exec (.mvra r) s = .next { t with acc := v }

/-- MVAR completes on every register id: it writes ACC where the table of R91 says, protected and invalid
ids included (R101; decisions D4, D11). -/
def Obligations.MvarCompletes : Prop :=
  ∀ (s : State) (r : Nibble), ∃ t, Writes s r s.acc t ∧ exec (.mvar r) s = .next t

/-- MVAH and MVAL place the unsigned literal in the high and the low nibble of ACC and keep the other
nibble; every literal value is accepted, in every configuration, and names no register (30_encoding.md
R63). -/
def Obligations.LiteralMovesSetOneNibble : Prop :=
  ∀ (s : State) (k : Nibble),
    exec (.mvah k) s = .next { s with acc := BitVec.ofNat 8 (k.toNat * 16 + s.acc.toNat % 16) } ∧
    exec (.mval k) s = .next { s with acc := BitVec.ofNat 8 (s.acc.toNat / 16 * 16 + k.toNat) }

/-- MVAH and MVAL with the nibbles of `v`, in either order, leave `acc = v`; a pair, MVAR to a
general-purpose register the machine has, and MVRA of it, reproduces `v` in ACC and in the register
(R104). -/
def Obligations.NibblePairBuildsEveryByte : Prop :=
  (∀ (s : State) (v : Byte), ∃ s1 s2, exec (.mvah (v.extractLsb' 4 4)) s = .next s1 ∧
    exec (.mval (v.extractLsb' 0 4)) s1 = .next s2 ∧ s2.acc = v) ∧
  (∀ (s : State) (v : Byte), ∃ s1 s2, exec (.mval (v.extractLsb' 0 4)) s = .next s1 ∧
    exec (.mvah (v.extractLsb' 4 4)) s1 = .next s2 ∧ s2.acc = v) ∧
  (∀ (s : State) (v : Byte) (r : Nibble), s.gpr.length = s.cfg.ngpr → IsGpr s.cfg r →
    ∃ s1 s2 s3 s4, exec (.mvah (v.extractLsb' 4 4)) s = .next s1 ∧
      exec (.mval (v.extractLsb' 0 4)) s1 = .next s2 ∧ exec (.mvar r) s2 = .next s3 ∧
      exec (.mvra r) s3 = .next s4 ∧ s4.acc = v ∧ s4.gpr.getD r.toNat 0 = v)

/-! ## Memory -/

/-- LDA and STA complete in every state with every operand field: the address is all of MEMA, unmodified
before and after; only ACC, or the byte at MEMA, changes; nothing is reported (42_memory_ops.md R112). -/
def Obligations.LoadAndStoreUseMema : Prop :=
  ∀ (s : State) (x : Nibble),
    exec (.lda x) s = .next { s with acc := s.ram.read s.mema.toNat } ∧
    exec (.sta x) s = .next { s with ram := s.ram.write s.mema.toNat s.acc }

/-- A store changes the byte at its address and no other; only STA stores; LDA after STA with MEMA
unchanged returns the byte stored, whatever ACC became meanwhile (20_memory.md R43). -/
def Obligations.StoreThenLoadReturnsTheByte : Prop :=
  (∀ (s : State) (a b v : Byte), (s.memWrite a v).memRead b = if b = a then v else s.memRead b) ∧
  (∀ (i : Instr) (s t : State), exec i s = .next t → t.ram ≠ s.ram → ∃ x, i = .sta x) ∧
  (∀ (s : State) (x y : Nibble) (w : Byte), ∃ s1 s2, exec (.sta x) s = .next s1 ∧
    exec (.lda y) { s1 with acc := w } = .next s2 ∧ s2.acc = s.acc)

/-- RAM is touched by LDA and STA only, at the address MEMA holds: STA writes `ram[mema]`, LDA reads it,
and the other instructions neither change RAM nor depend on it (10_state.md R26). -/
def Obligations.RamTouchedOnlyByLdaAndStaAtMema : Prop :=
  (∀ (i : Instr) (s t : State) (a : Byte), exec i s = .next t → t.memRead a ≠ s.memRead a →
    a = s.mema ∧ ∃ x, i = .sta x) ∧
  (∀ (s : State) (x : Nibble), ∃ t, exec (.lda x) s = .next t ∧ t.acc = s.memRead s.mema) ∧
  (∀ (s : State) (x : Nibble), ∃ t, exec (.sta x) s = .next t ∧ t.memRead s.mema = s.acc) ∧
  (∀ (i : Instr) (s t : State) (m : Memory), exec i s = .next t →
    (∀ x, i ≠ .lda x ∧ i ≠ .sta x) →
    exec i { s with ram := m } = .next { t with ram := m })

/-- A store is never seen by an instruction fetch: no step changes ROM, and what a step fetches does not
depend on RAM (20_memory.md R52). -/
def Obligations.StoresNeverReachFetch : Prop :=
  (∀ s t : State, step s = .next t → t.rom = s.rom) ∧
  (∀ (s t : State) (m : Memory), step s = .next t →
    ∃ u, step { s with ram := m } = .next u ∧ u.ir = t.ir ∧ u.pc = t.pc ∧ u.rom = t.rom)

/-- ROM, COUNT and the configuration are constant during execution, and no instruction reads ROM as data
(R24, R25, R27). -/
def Obligations.LoadTimeStateIsConstant : Prop :=
  (∀ s t : State, step s = .next t → t.rom = s.rom ∧ t.count = s.count ∧ t.cfg = s.cfg) ∧
  (∀ (i : Instr) (s t : State) (m : Memory) (n : BitVec 9), exec i s = .next t →
    exec i { s with rom := m, count := n } = .next { t with rom := m, count := n })

/-! ## Jumps -/

/-- JUMPZ and JUMPN complete in every state with every operand field: taken (ACC zero; ACC at least 128),
`pc` is INSTA, whole and absolute; not taken, `pc` keeps the value fetch left; nothing else changes: no
link register, no report. The next halt check is on the new `pc`: after a taken jump the machine is halted
exactly if INSTA is above COUNT (inclusive form), at or above COUNT (exclusive form, R81), so a jump to an
index above COUNT halts in either. MVRA ZERO then JUMPZ is always taken (43_jumps.md R122). -/
def Obligations.JumpsGoToInstaOrFallThrough : Prop :=
  (∀ (s : State) (x : Nibble),
    exec (.jumpz x) s = .next { s with pc := if s.acc = 0 then s.insta else s.pc } ∧
    exec (.jumpn x) s = .next { s with pc := if 128 ≤ s.acc.toNat then s.insta else s.pc }) ∧
  (∀ (s t : State) (x : Nibble),
    (exec (.jumpz x) s = .next t ∧ s.acc = 0) ∨ (exec (.jumpn x) s = .next t ∧ 128 ≤ s.acc.toNat) →
    (s.cfg.haltInclusive = true → (t.halted = true ↔ s.insta.toNat > s.count.toNat)) ∧
    (s.cfg.haltInclusive = false → (t.halted = true ↔ s.insta.toNat ≥ s.count.toNat)) ∧
    (s.insta.toNat > s.count.toNat → t.halted = true)) ∧
  (∀ (s : State) (r x : Nibble), IsSpecial s.cfg r .zero → ∃ s1, exec (.mvra r) s = .next s1 ∧
    exec (.jumpz x) s1 = .next { s1 with pc := s.insta })

/-- The operand field of LDA, STA, JUMPZ and JUMPN is ignored: all 16 values execute identically (R64,
the spec's decision D9, log entry 8). -/
def Obligations.UnusedOperandIsIgnored : Prop :=
  ∀ (s : State) (x y : Nibble), exec (.lda x) s = exec (.lda y) s ∧
    exec (.sta x) s = exec (.sta y) s ∧ exec (.jumpz x) s = exec (.jumpz y) s ∧
    exec (.jumpn x) s = exec (.jumpn y) s

/-! ## Arithmetic and logic -/

/-- ADD, SUB (ACC the minuend) and MUL put the exact integer result modulo 256 into ACC; overflow is not
detected, does not saturate and does not report: nothing else changes but what the register read does
(44_alu.md R140). -/
def Obligations.ArithmeticWrapsModulo256 : Prop :=
  ∀ (s : State) (r : Nibble), Readable s r → ∃ v t, Reads s r v t ∧
    exec (.add r) s = .next { t with acc := BitVec.ofNat 8 ((s.acc.toNat + v.toNat) % 256) } ∧
    exec (.sub r) s = .next { t with acc := BitVec.ofNat 8 ((s.acc.toNat + 256 - v.toNat) % 256) } ∧
    exec (.mul r) s = .next { t with acc := BitVec.ofNat 8 ((s.acc.toNat * v.toNat) % 256) }

/-- LLS and LRS shift by the low three bits of the register's value: left, the bits past bit 7 lost; right,
zeros entering at bit 7 (R133, R134; that the right shift is logical is the spec's decision D10, log
entry 9). -/
def Obligations.ShiftsByLowThreeBits : Prop :=
  ∀ (s : State) (r : Nibble), Readable s r → ∃ v t, Reads s r v t ∧
    (∃ a, exec (.lls r) s = .next { t with acc := a } ∧
      ∀ j < 8, a.getLsbD j = (decide (v.toNat % 8 ≤ j) && s.acc.getLsbD (j - v.toNat % 8))) ∧
    (∃ a, exec (.lrs r) s = .next { t with acc := a } ∧
      ∀ j < 8, a.getLsbD j = s.acc.getLsbD (j + v.toNat % 8))

/-- AND, OR and XOR combine ACC with the register's value bit by bit (R135, R136, R137). -/
def Obligations.LogicIsBitwise : Prop :=
  ∀ (s : State) (r : Nibble), Readable s r → ∃ v t, Reads s r v t ∧
    (∃ a, exec (.and r) s = .next { t with acc := a } ∧
      ∀ j < 8, a.getLsbD j = (s.acc.getLsbD j && v.getLsbD j)) ∧
    (∃ a, exec (.or r) s = .next { t with acc := a } ∧
      ∀ j < 8, a.getLsbD j = (s.acc.getLsbD j || v.getLsbD j)) ∧
    (∃ a, exec (.xor r) s = .next { t with acc := a } ∧
      ∀ j < 8, a.getLsbD j = (s.acc.getLsbD j ^^ v.getLsbD j))

/-- The constants as operands (R70, R141, and the corner cases of R100 and R130 to R137): what MVRA and
the ALU instructions do with ZERO, ONE and MIN1, in every configuration. That LRS is logical is the
spec's decision D10 (log entry 9). -/
def Obligations.ConstantOperandIdioms : Prop :=
  (∀ (s : State) (r : Nibble), IsSpecial s.cfg r .zero →
    (∀ i ∈ [Instr.add r, .sub r, .lls r, .lrs r, .or r, .xor r], exec i s = .next s) ∧
    ∀ i ∈ [Instr.mvra r, .mul r, .and r], exec i s = .next { s with acc := 0 }) ∧
  (∀ (s : State) (r : Nibble), IsSpecial s.cfg r .one →
    exec (.mvra r) s = .next { s with acc := 1 } ∧ exec (.mul r) s = .next s ∧
    exec (.add r) s = .next { s with acc := BitVec.ofNat 8 (s.acc.toNat + 1) } ∧
    exec (.sub r) s = .next { s with acc := BitVec.ofNat 8 (s.acc.toNat + 255) } ∧
    exec (.lls r) s = .next { s with acc := BitVec.ofNat 8 (2 * s.acc.toNat) } ∧
    exec (.lrs r) s = .next { s with acc := BitVec.ofNat 8 (s.acc.toNat / 2) } ∧
    exec (.and r) s = .next { s with acc := BitVec.ofNat 8 (s.acc.toNat % 2) } ∧
    exec (.or r) s = .next { s with acc := BitVec.ofNat 8 (s.acc.toNat / 2 * 2 + 1) } ∧
    exec (.xor r) s =
      .next { s with acc := BitVec.ofNat 8 (s.acc.toNat / 2 * 2 + (1 - s.acc.toNat % 2)) }) ∧
  (∀ (s : State) (r : Nibble), IsSpecial s.cfg r .min1 →
    exec (.mvra r) s = .next { s with acc := 255 } ∧ exec (.and r) s = .next s ∧
    exec (.or r) s = .next { s with acc := 255 } ∧
    exec (.add r) s = .next { s with acc := BitVec.ofNat 8 (s.acc.toNat + 255) } ∧
    exec (.sub r) s = .next { s with acc := BitVec.ofNat 8 (s.acc.toNat + 1) } ∧
    exec (.mul r) s = .next { s with acc := BitVec.ofNat 8 (256 - s.acc.toNat) } ∧
    exec (.xor r) s = .next { s with acc := BitVec.ofNat 8 (255 - s.acc.toNat) } ∧
    exec (.lls r) s = .next { s with acc := BitVec.ofNat 8 (128 * (s.acc.toNat % 2)) } ∧
    exec (.lrs r) s = .next { s with acc := BitVec.ofNat 8 (s.acc.toNat / 128) })

/-! ## Frames -/

/-- The frame of MVRA and the eight ALU instructions: only ACC changes, and what the register read does
(IN takes one input value into `inreg`; an invalid id is reported). The operand register is never
written, no byte of memory changes (44_alu.md R138 and the "State written" lines of R100). -/
def Obligations.RegisterReadingInstructionsFrame : Prop :=
  ∀ (i : Instr) (r : Nibble) (s t : State),
    i ∈ [.mvra r, .add r, .sub r, .mul r, .lls r, .lrs r, .and r, .or r, .xor r] →
    exec i s = .next t →
    t.cfg = s.cfg ∧ t.pc = s.pc ∧ t.ir = s.ir ∧ t.gpr = s.gpr ∧ t.mema = s.mema ∧
    t.insta = s.insta ∧ t.outreg = s.outreg ∧ t.rom = s.rom ∧ t.count = s.count ∧
    (∀ a, t.memRead a = s.memRead a) ∧ t.ram = s.ram ∧
    (¬ IsSpecial s.cfg r .inp → t.inreg = s.inreg ∧ t.input = s.input) ∧
    (IsSpecial s.cfg r .inp → s.input = t.inreg :: t.input) ∧
    (¬ IsInvalid s.cfg r → t.log = s.log) ∧
    (IsInvalid s.cfg r → t.log = s.log ++ [.badRegisterId r])

/-- The frame of MVAR: exactly the register its id names changes (register 0 for an invalid id), nothing
for a protected one; ACC, every byte of memory and the input stream are unchanged; a report is added for
a protected or an invalid id only (41_moves.md R101; decision D11, log entry 10). -/
def Obligations.MvarFrame : Prop :=
  ∀ (r : Nibble) (s t : State), exec (.mvar r) s = .next t →
    t.cfg = s.cfg ∧ t.pc = s.pc ∧ t.ir = s.ir ∧ t.acc = s.acc ∧ t.inreg = s.inreg ∧
    t.input = s.input ∧ t.rom = s.rom ∧ t.count = s.count ∧
    (∀ a, t.memRead a = s.memRead a) ∧ t.ram = s.ram ∧ t.gpr.length = s.gpr.length ∧
    (∀ k, ¬ (IsGpr s.cfg r ∧ k = r.toNat) → ¬ (IsInvalid s.cfg r ∧ k = 0) →
      t.getGpr k = s.getGpr k) ∧
    (¬ IsSpecial s.cfg r .mema → t.mema = s.mema) ∧
    (¬ IsSpecial s.cfg r .insta → t.insta = s.insta) ∧
    (¬ IsSpecial s.cfg r .out → t.outreg = s.outreg) ∧
    (IsInvalid s.cfg r → t.log = s.log ++ [.badRegisterId r]) ∧
    ((∃ q ∈ [Special.zero, .one, .min1, .inp], IsSpecial s.cfg r q) →
      t = { s with log := s.log ++ [.protectedWrite r] }) ∧
    (IsGpr s.cfg r ∨ (∃ q ∈ [Special.mema, .insta, .out], IsSpecial s.cfg r q) → t.log = s.log)

/-- The frame of MVAH, MVAL and LDA: nothing but ACC changes; MVAH keeps ACC's low nibble, MVAL its high
nibble; no byte of memory changes (R102, R103, R110, the "State written" lines). -/
def Obligations.AccOnlyInstructionsFrame : Prop :=
  ∀ (i : Instr) (x : Nibble) (s t : State), i ∈ [.mvah x, .mval x, .lda x] → exec i s = .next t →
    t.cfg = s.cfg ∧ t.pc = s.pc ∧ t.ir = s.ir ∧ t.gpr = s.gpr ∧ t.mema = s.mema ∧
    t.insta = s.insta ∧ t.inreg = s.inreg ∧ t.outreg = s.outreg ∧ t.rom = s.rom ∧
    t.count = s.count ∧ t.input = s.input ∧ t.log = s.log ∧
    (∀ a, t.memRead a = s.memRead a) ∧ t.ram = s.ram ∧
    (i = .mvah x → ∀ j < 4, t.acc.getLsbD j = s.acc.getLsbD j) ∧
    (i = .mval x → ∀ j, 4 ≤ j → t.acc.getLsbD j = s.acc.getLsbD j)

/-- The frame of STA: the byte stored to is the one at `State.effAddr`, and every other byte of memory
reads as before; no register, ACC and MEMA included, and no other field changes (R111). -/
def Obligations.StaFrame : Prop :=
  ∀ (x : Nibble) (s t : State), exec (.sta x) s = .next t →
    t.cfg = s.cfg ∧ t.pc = s.pc ∧ t.ir = s.ir ∧ t.acc = s.acc ∧ t.gpr = s.gpr ∧
    t.mema = s.mema ∧ t.insta = s.insta ∧ t.inreg = s.inreg ∧ t.outreg = s.outreg ∧
    t.rom = s.rom ∧ t.count = s.count ∧ t.input = s.input ∧ t.log = s.log ∧
    (∀ a, a = s.effAddr → t.memRead a = s.acc ∧ ∀ b, b ≠ a → t.memRead b = s.memRead b)

/-- The frame of JUMPZ and JUMPN: nothing but `pc` changes, no byte of memory (R120, R121, the "State
written" lines). -/
def Obligations.JumpFrame : Prop :=
  ∀ (i : Instr) (x : Nibble) (s t : State), i ∈ [.jumpz x, .jumpn x] → exec i s = .next t →
    t.cfg = s.cfg ∧ t.ir = s.ir ∧ t.acc = s.acc ∧ t.gpr = s.gpr ∧ t.mema = s.mema ∧
    t.insta = s.insta ∧ t.inreg = s.inreg ∧ t.outreg = s.outreg ∧ t.rom = s.rom ∧
    t.count = s.count ∧ t.input = s.input ∧ t.log = s.log ∧
    (∀ a, t.memRead a = s.memRead a) ∧ t.ram = s.ram

/-! ## Reports -/

/-- A step emits at most one report, and it is the last entry of the log; LDA, STA, JUMPZ, JUMPN, MVAH and
MVAL emit none (R93). -/
def Obligations.AtMostOneReportPerStep : Prop :=
  (∀ s t : State, step s = .next t → t.log = s.log ∨ ∃ e, t.log = s.log ++ [e]) ∧
  (∀ (i : Instr) (x : Nibble) (s t : State),
    i ∈ [.lda x, .sta x, .jumpz x, .jumpn x, .mvah x, .mval x] → exec i s = .next t →
    t.log = s.log)

/-- Reports are not state: the log changes nothing a step does, and a step adds the same reports to any
log (60_exceptions.md R150, decision D12; the log is the model's field, log entry 2). -/
def Obligations.LogNeverInfluencesAStep : Prop :=
  ∀ (s t : State) (l : List Report), step s = .next t →
    ∃ added, t.log = s.log ++ added ∧
      step { s with log := l } = .next { t with log := l ++ added }

/-! ## Invariants -/

/-- The invariant holds after reset in every legal configuration, CFG0 among them. -/
def Obligations.ResetMeetsInvariant : Prop :=
  cfg0.legal ∧ ∀ c : Config, c.legal → StateInv (State.resetFor c)

/-- Every step keeps the invariant: legal configuration, NGPR register cells, both memories canonical,
COUNT at most 256, ROM zero from COUNT on, nothing in a cell the configuration lacks. -/
def Obligations.StepKeepsInvariant : Prop :=
  ∀ s t : State, StateInv s → step s = .next t → StateInv t

/-- The invariant holds after reset and program load, whatever the file (R171, R179, R180). -/
def Obligations.BootMeetsInvariant : Prop :=
  ∀ (c : Config) (file : Option (List Char)), c.legal → StateInv (State.boot c file)

/-- The boundary step of the inclusive form: in every state of the invariant with `pc = count` below 255,
the step is MVRA R0 (`acc` from register 0, `ir` the zero word), `pc` goes past COUNT, and the run ends
there (R87 item 1, 90_conflicts.md C3; the
form is the spec's decision D6, log entry 6). -/
def Obligations.BoundaryStepIsMvraRegisterZero : Prop :=
  ∀ s : State, StateInv s → s.cfg.haltInclusive = true → s.count.toNat = s.pc.toNat →
    s.pc.toNat ≤ 254 →
    step s = .next { s with acc := s.getGpr 0, ir := 0, pc := s.pc + 1 } ∧
    EndsIn s { s with acc := s.getGpr 0, ir := 0, pc := s.pc + 1 }

/-- Under the inclusive form, a machine with COUNT 255 or more is not halted in any state of a run, so its
run never ends (R87 item 3; decisions D6, D7, log entry 6). -/
def Obligations.FullProgramNeverHalts : Prop :=
  ∀ s t : State, s.cfg.haltInclusive = true → 255 ≤ s.count.toNat → Steps s t →
    t.halted = false

/-! ## Reset, program load, read-out -/

/-- After reset, and after reset and load, `pc` is 0: the first fetch reads ROM index 0, not a reset
vector (10_state.md R30). That `State.reset` is not halted is the model's choice of COUNT 0 before a load
(log entry 7) with CFG0's inclusive form, the spec's decision D6 (log entry 6). -/
def Obligations.ResetStartsAtRomIndexZero : Prop :=
  State.reset.pc = 0 ∧ State.reset.halted = false ∧
  ∀ (c : Config) (file : Option (List Char)), (State.resetFor c).pc = 0 ∧
    (State.boot c file).pc = 0 ∧ (State.boot c file).fetchWord = (State.boot c file).rom.read 0

/-- What the source leaves open at reset is 0 by the spec's decision D8 (R33; log entry 4: not a value the
source states). -/
def Obligations.ResetLeavesOpenStateZero : Prop :=
  ∀ c : Config, (State.resetFor c).ir = 0 ∧ (State.resetFor c).acc = 0 ∧
    (State.resetFor c).mema = 0 ∧ (State.resetFor c).insta = 0 ∧ (State.resetFor c).inreg = 0 ∧
    (State.resetFor c).outreg = 0 ∧ (State.resetFor c).gpr.length = c.ngpr ∧
    (∀ k, (State.resetFor c).getGpr k = 0) ∧ ∀ a, (State.resetFor c).memRead a = 0

/-- With nothing loaded CFG0 runs exactly one step, the boundary step MVRA R0: afterwards `pc = 1`, all
else as at reset, and the machine is halted (R87 item 2, 90_conflicts.md C1; decisions D1, D6, D8, log
entry 7). -/
def Obligations.EmptyProgramRunsOneBoundaryStep : Prop :=
  ∃ t, step State.reset = .next t ∧ t = { State.reset with pc := 1 } ∧ t.halted = true

/-- After load COUNT is the number of words stored, `rom[i]` is the i-th stored word for `i < count`, and
`rom[i] = 0` from there on (70_reset_and_hazards.md R179). -/
def Obligations.LoadPlacesWordsFromIndexZero : Prop :=
  ∀ (c : Config) (file : Option (List Char)),
    (State.boot c file).count.toNat = (loadFile c file).words.length ∧
    (∀ i (h : i < (loadFile c file).words.length),
      (State.boot c file).rom.read i = (loadFile c file).words[i]) ∧
    (∀ i, (loadFile c file).words.length ≤ i → (State.boot c file).rom.read i = 0)

/-- At most 256 words are stored, the first 256 of those the lines yield: the cap is on stored words, so
rejected lines do not use it up, and lines after the 256th stored word change nothing (R180). -/
def Obligations.LoadStopsAt256StoredWords : Prop :=
  (∀ (c : Config) (text : List Char), (loadFile c (some text)).words =
    ((splitLines text).filterMap fun l => lineWord c (scanBits 8 l)).take 256) ∧
  (∀ (c : Config) (file : Option (List Char)), (loadFile c file).words.length ≤ 256) ∧
  (∀ (c : Config) (n : Nat) (ls more : List (List Char)),
    (loadLines c n 256 ls).words.length = 256 → loadLines c n 256 (ls ++ more) = loadLines c n 256 ls)

/-- The first bit character of a line is bit 7 of the word and the eighth is bit 0, whatever follows on
the line; `01011010` is the word 0x5A (R175). -/
def Obligations.LineIsReadMostSignificantBitFirst : Prop :=
  (∀ (c : Config) (bits : List Bool) (rest : List Char), bits.length = 8 →
    ∃ w, lineWord c (scanBits 8 ((bits.map fun b => if b then '1' else '0') ++ rest)) = some w ∧
      ∀ j (h : j < bits.length), w.getLsbD (7 - j) = bits[j]) ∧
  (∀ c : Config, lineWord c (scanBits 8 ['0', '1', '0', '1', '1', '0', '1', '0']) = some 0x5A)

/-- A program file written from up to 256 words, one line of eight bits each, loads back as exactly those
words, with no report, under either policy (30_encoding.md R71, R174). Under policy (a) this rests on the
model's choice that a line feed at the very end of a file begins no further line (log entry 12). -/
def Obligations.ProgramFileOfWordsLoadsBack : Prop :=
  ∀ (c : Config) (words : List Byte), words.length ≤ 256 →
    loadFile c (some (programText words)) = ⟨words, []⟩

/-- A `;` ends the scan of its own line only: what follows it on the line is not looked at, and the lines
after it are read as before. A character that is none of `0`, `1`, `;` is skipped wherever it stands
(R176; the skipping is the spec's decision D13, log entry 11). -/
def Obligations.CommentsEndTheLineAndOthersAreSkipped : Prop :=
  (∀ (n : Nat) (before after : List Char),
    scanBits n (before ++ ';' :: after) = scanBits n before) ∧
  (∀ (before after : List Char), (∀ ch ∈ before, ch ≠ '\n') → (∀ ch ∈ after, ch ≠ '\n') →
    ∀ rest, splitLines (before ++ ';' :: after ++ '\n' :: rest) =
      (before ++ ';' :: after) :: splitLines rest) ∧
  (∀ (n : Nat) (before after : List Char) (ch : Char), ch ≠ '0' → ch ≠ '1' → ch ≠ ';' →
    scanBits n (before ++ ch :: after) = scanBits n (before ++ after))

/-- Under the strict policy a line stores a word exactly if 8 bits were found, and a rejected line is
reported exactly if it had a bit (R177, R152; the spec's decision D13, log entry 11). -/
def Obligations.StrictLoaderRejectsShortLines : Prop :=
  ∀ (c : Config) (n : Nat) (line : List Char), c.loaderStrict = true →
    ((lineWord c (scanBits 8 line)).isSome = true ↔ (scanBits 8 line).length = 8) ∧
    (lineReports c n (scanBits 8 line) = [.malformedLine n] ↔
      0 < (scanBits 8 line).length ∧ (scanBits 8 line).length < 8) ∧
    ((scanBits 8 line).length = 0 ∨ (scanBits 8 line).length = 8 →
      lineReports c n (scanBits 8 line) = [])

/-- A file that cannot be opened leaves COUNT 0 and the ROM zero, and is reported; a file with no
acceptable line gives the same without that report (R181). -/
def Obligations.FailedOpenLoadsNothingAndReports : Prop :=
  (∀ c : Config, (State.boot c none).count = 0 ∧ (∀ a, (State.boot c none).romRead a = 0) ∧
    (State.boot c none).log = [.fileOpenFailure]) ∧
  (∀ (c : Config) (text : List Char),
    (∀ line ∈ splitLines text, lineWord c (scanBits 8 line) = none) →
    (State.boot c (some text)).count = 0 ∧ (∀ a, (State.boot c (some text)).romRead a = 0) ∧
    .fileOpenFailure ∉ (State.boot c (some text)).log)

/-- After halt the core hands over every GPR, INSTA, MEMA, IR, PC, ACC and the RAM; a state that is not
halted hands nothing over, so a run that never halts hands nothing over (R186). -/
def Obligations.HandoverExactlyAfterHalt : Prop :=
  ∀ s : State,
    (s.halted = true → ∃ h, s.handover = some h ∧ h.gpr = s.gpr ∧ h.insta = s.insta ∧
      h.mema = s.mema ∧ h.ir = s.ir ∧ h.pc = s.pc ∧ h.acc = s.acc ∧ h.ram = s.ram) ∧
    (s.halted = false → s.handover = none)

/-- After halt the input cell is handed over if HAS_IN, the output cell if HAS_OUT, and each is absent
otherwise. For the input cell this is R92 (decision D4); for the output cell, on which R186 and R165 are
silent, it is the model's choice (log entry 22, after C9 and R19). -/
def Obligations.HandoverIncludesConfiguredInAndOut : Prop :=
  ∀ s : State, s.halted = true → ∃ h, s.handover = some h ∧
    (s.cfg.hasIn = true → h.inreg = some s.inreg) ∧ (s.cfg.hasIn = false → h.inreg = none) ∧
    (s.cfg.hasOut = true → h.outreg = some s.outreg) ∧ (s.cfg.hasOut = false → h.outreg = none)

/-- A value written by one instruction is seen by the very next: MVAR MEMA then LDA or STA uses the new
address, MVAR INSTA then a taken jump the new target (R190). -/
def Obligations.WritesAreSeenByTheNextInstruction : Prop :=
  (∀ (s : State) (r x : Nibble), IsSpecial s.cfg r .mema → ∃ s1,
    exec (.mvar r) s = .next s1 ∧
    exec (.lda x) s1 = .next { s1 with acc := s.ram.read s.acc.toNat } ∧
    exec (.sta x) s1 = .next { s1 with ram := s.ram.write s.acc.toNat s.acc }) ∧
  (∀ (s : State) (r x : Nibble), IsSpecial s.cfg r .insta → ∃ s1,
    exec (.mvar r) s = .next s1 ∧
    (s.acc = 0 → ∃ t, exec (.jumpz x) s1 = .next t ∧ t.pc = s.acc) ∧
    (128 ≤ s.acc.toNat → ∃ t, exec (.jumpn x) s1 = .next t ∧ t.pc = s.acc))
end

