-- ==== Sys2Proof/Laws/Alu.lean ====
section
/-! SUPPORT. The arithmetic of the spec, exact on integers and narrowed at the end, as operations on bit
vectors, and the operand helpers. -/

namespace Sys2Proof.Machine

theorem trunc8_natCast (n : Nat) : trunc8 (n : Int) = BitVec.ofNat 8 n := by
  unfold trunc8
  exact BitVec.ofInt_natCast 8 n

theorem trunc8_succ (p : Byte) : trunc8 ((p.toNat : Int) + 1) = p + 1 := by
  have h : (p.toNat : Int) + 1 = ((p.toNat + 1 : Nat) : Int) := by push_cast; rfl
  rw [h, trunc8_natCast]
  apply BitVec.eq_of_toNat_eq
  simp [BitVec.toNat_add]

theorem aluAdd_eq (a v : Byte) : aluAdd a v = a + v := by
  have h : (a.toNat : Int) + (v.toNat : Int) = ((a.toNat + v.toNat : Nat) : Int) := by push_cast; rfl
  unfold aluAdd
  rw [h, trunc8_natCast]
  apply BitVec.eq_of_toNat_eq
  simp [BitVec.toNat_add]

theorem aluSub_eq (a v : Byte) : aluSub a v = a - v := by
  unfold aluSub trunc8
  apply BitVec.eq_of_toInt_eq
  rw [BitVec.toInt_ofInt, BitVec.toInt_sub, BitVec.toInt_eq_toNat_bmod, BitVec.toInt_eq_toNat_bmod]
  simp

theorem aluMul_eq (a v : Byte) : aluMul a v = a * v := by
  have h : (a.toNat : Int) * (v.toNat : Int) = ((a.toNat * v.toNat : Nat) : Int) := by push_cast; rfl
  unfold aluMul
  rw [h, trunc8_natCast]
  apply BitVec.eq_of_toNat_eq
  simp [BitVec.toNat_mul]

theorem shiftAmount_eq (v : Byte) : shiftAmount v = v.toNat % 8 := by
  revert v; decide

theorem aluLls_eq (a v : Byte) : aluLls a v = BitVec.ofNat 8 (a.toNat * 2 ^ (v.toNat % 8)) := by
  unfold aluLls
  rw [shiftAmount_eq, ← trunc8_natCast]
  push_cast
  rfl

theorem aluLrs_eq (a v : Byte) : aluLrs a v = BitVec.ofNat 8 (a.toNat / 2 ^ (v.toNat % 8)) := by
  unfold aluLrs
  rw [shiftAmount_eq, ← trunc8_natCast]
  push_cast
  rfl

/-- `{k, acc[3:0]}` (30_encoding.md R63). -/
theorem setHighNibble_eq (a : Byte) (k : Nibble) : setHighNibble a k = joinWord k (operandOf a) := by
  revert k a; decide

/-- `{acc[7:4], k}` (R63). -/
theorem setLowNibble_eq (a : Byte) (k : Nibble) : setLowNibble a k = joinWord (opcodeOf a) k := by
  revert k a; decide

end Sys2Proof.Machine
end

