-- ==== Sys2Proof/Laws/Decode.lean ====
section
/-! SUPPORT. The laws of the instruction word: its two fields are independent and lose no bit. -/

namespace Sys2Proof

@[simp] theorem opcodeOf_joinWord (opcode operand : Nibble) :
    opcodeOf (joinWord opcode operand) = opcode := by
  unfold opcodeOf joinWord
  ext j hj
  rw [BitVec.getElem_extractLsb', BitVec.getLsbD_append, if_neg (by omega), Nat.add_sub_cancel_left]
  exact BitVec.getLsbD_eq_getElem hj

@[simp] theorem operandOf_joinWord (opcode operand : Nibble) :
    operandOf (joinWord opcode operand) = operand := by
  unfold operandOf joinWord
  ext j hj
  rw [BitVec.getElem_extractLsb', BitVec.getLsbD_append, if_pos (by omega), Nat.zero_add]
  exact BitVec.getLsbD_eq_getElem hj

@[simp] theorem joinWord_fields (w : Byte) : joinWord (opcodeOf w) (operandOf w) = w := by
  revert w; decide

@[simp] theorem Mnemonic.mnemonic_withOperand (m : Mnemonic) (x : Nibble) :
    (m.withOperand x).mnemonic = m := by cases m <;> rfl

@[simp] theorem Mnemonic.operand_withOperand (m : Mnemonic) (x : Nibble) :
    (m.withOperand x).operand = x := by cases m <;> rfl

/-- The opcode found for a mnemonic is a row of the map. -/
theorem opcodeFor_mem {opmap : List (Nibble × Mnemonic)} {m : Mnemonic} {opcode : Nibble}
    (h : opcodeFor m opmap = some opcode) : (opcode, m) ∈ opmap := by
  induction opmap with
  | nil => cases h
  | cons p rows ih =>
    obtain ⟨o, n⟩ := p
    simp only [opcodeFor] at h
    split at h
    · next hn => cases h; simp [hn]
    · exact List.mem_cons_of_mem _ (ih h)

/-- A mnemonic of the map has an opcode. -/
theorem opcodeFor_isSome {opmap : List (Nibble × Mnemonic)} {m : Mnemonic}
    (h : m ∈ opmap.map Prod.snd) : ∃ opcode, opcodeFor m opmap = some opcode := by
  induction opmap with
  | nil => simp at h
  | cons p rows ih =>
    obtain ⟨o, n⟩ := p
    simp only [opcodeFor]
    split
    · exact ⟨o, rfl⟩
    · next hn =>
      refine ih ?_
      rcases List.mem_cons.mp h with h | h
      · exact absurd h.symm hn
      · exact h

/-- In a map that gives no opcode two rows, a row is what its opcode looks up. -/
theorem opmapAt_of_mem {opmap : List (Nibble × Mnemonic)} {m : Mnemonic} {opcode : Nibble}
    (hn : (opmap.map Prod.fst).Nodup) (h : (opcode, m) ∈ opmap) :
    opmapAt opmap opcode = some m := by
  unfold opmapAt
  induction opmap with
  | nil => cases h
  | cons p rows ih =>
    obtain ⟨o, n⟩ := p
    rw [List.map_cons, List.nodup_cons] at hn
    rcases List.mem_cons.mp h with h | h
    · cases h; simp
    · have hne : (opcode == o) = false := by
        refine beq_eq_false_iff_ne.mpr fun he => hn.1 ?_
        exact List.mem_map.mpr ⟨(opcode, m), h, he⟩
      simp [List.lookup, hne, ih hn.2 h]

/-- Every mnemonic has an opcode in CFG0. -/
theorem wf_cfg0 (m : Mnemonic) : m ∈ cfg0.opmap.map Prod.snd := by cases m <;> decide

end Sys2Proof
end

