-- ==== Sys2Proof/Laws/State.lean ====
section
/-! SUPPORT. One lemma per field per update of State, so that no later proof unfolds a record update. -/

namespace Sys2Proof.Machine

variable (s : State)

@[simp] theorem State.setAcc_cfg (v : Byte) : (s.setAcc v).cfg = s.cfg := rfl
@[simp] theorem State.setAcc_pc (v : Byte) : (s.setAcc v).pc = s.pc := rfl
@[simp] theorem State.setAcc_ir (v : Byte) : (s.setAcc v).ir = s.ir := rfl
@[simp] theorem State.setAcc_acc (v : Byte) : (s.setAcc v).acc = v := rfl
@[simp] theorem State.setAcc_gpr (v : Byte) : (s.setAcc v).gpr = s.gpr := rfl
@[simp] theorem State.setAcc_mema (v : Byte) : (s.setAcc v).mema = s.mema := rfl
@[simp] theorem State.setAcc_insta (v : Byte) : (s.setAcc v).insta = s.insta := rfl
@[simp] theorem State.setAcc_inreg (v : Byte) : (s.setAcc v).inreg = s.inreg := rfl
@[simp] theorem State.setAcc_outreg (v : Byte) : (s.setAcc v).outreg = s.outreg := rfl
@[simp] theorem State.setAcc_ram (v : Byte) : (s.setAcc v).ram = s.ram := rfl
@[simp] theorem State.setAcc_rom (v : Byte) : (s.setAcc v).rom = s.rom := rfl
@[simp] theorem State.setAcc_count (v : Byte) : (s.setAcc v).count = s.count := rfl
@[simp] theorem State.setAcc_input (v : Byte) : (s.setAcc v).input = s.input := rfl
@[simp] theorem State.setAcc_log (v : Byte) : (s.setAcc v).log = s.log := rfl

@[simp] theorem State.setPc_cfg (v : Byte) : (s.setPc v).cfg = s.cfg := rfl
@[simp] theorem State.setPc_pc (v : Byte) : (s.setPc v).pc = v := rfl
@[simp] theorem State.setPc_ir (v : Byte) : (s.setPc v).ir = s.ir := rfl
@[simp] theorem State.setPc_acc (v : Byte) : (s.setPc v).acc = s.acc := rfl
@[simp] theorem State.setPc_gpr (v : Byte) : (s.setPc v).gpr = s.gpr := rfl
@[simp] theorem State.setPc_mema (v : Byte) : (s.setPc v).mema = s.mema := rfl
@[simp] theorem State.setPc_insta (v : Byte) : (s.setPc v).insta = s.insta := rfl
@[simp] theorem State.setPc_inreg (v : Byte) : (s.setPc v).inreg = s.inreg := rfl
@[simp] theorem State.setPc_outreg (v : Byte) : (s.setPc v).outreg = s.outreg := rfl
@[simp] theorem State.setPc_ram (v : Byte) : (s.setPc v).ram = s.ram := rfl
@[simp] theorem State.setPc_rom (v : Byte) : (s.setPc v).rom = s.rom := rfl
@[simp] theorem State.setPc_count (v : Byte) : (s.setPc v).count = s.count := rfl
@[simp] theorem State.setPc_input (v : Byte) : (s.setPc v).input = s.input := rfl
@[simp] theorem State.setPc_log (v : Byte) : (s.setPc v).log = s.log := rfl

@[simp] theorem State.setMema_cfg (v : Byte) : (s.setMema v).cfg = s.cfg := rfl
@[simp] theorem State.setMema_pc (v : Byte) : (s.setMema v).pc = s.pc := rfl
@[simp] theorem State.setMema_ir (v : Byte) : (s.setMema v).ir = s.ir := rfl
@[simp] theorem State.setMema_acc (v : Byte) : (s.setMema v).acc = s.acc := rfl
@[simp] theorem State.setMema_gpr (v : Byte) : (s.setMema v).gpr = s.gpr := rfl
@[simp] theorem State.setMema_mema (v : Byte) : (s.setMema v).mema = v := rfl
@[simp] theorem State.setMema_insta (v : Byte) : (s.setMema v).insta = s.insta := rfl
@[simp] theorem State.setMema_inreg (v : Byte) : (s.setMema v).inreg = s.inreg := rfl
@[simp] theorem State.setMema_outreg (v : Byte) : (s.setMema v).outreg = s.outreg := rfl
@[simp] theorem State.setMema_ram (v : Byte) : (s.setMema v).ram = s.ram := rfl
@[simp] theorem State.setMema_rom (v : Byte) : (s.setMema v).rom = s.rom := rfl
@[simp] theorem State.setMema_count (v : Byte) : (s.setMema v).count = s.count := rfl
@[simp] theorem State.setMema_input (v : Byte) : (s.setMema v).input = s.input := rfl
@[simp] theorem State.setMema_log (v : Byte) : (s.setMema v).log = s.log := rfl

@[simp] theorem State.setInsta_cfg (v : Byte) : (s.setInsta v).cfg = s.cfg := rfl
@[simp] theorem State.setInsta_pc (v : Byte) : (s.setInsta v).pc = s.pc := rfl
@[simp] theorem State.setInsta_ir (v : Byte) : (s.setInsta v).ir = s.ir := rfl
@[simp] theorem State.setInsta_acc (v : Byte) : (s.setInsta v).acc = s.acc := rfl
@[simp] theorem State.setInsta_gpr (v : Byte) : (s.setInsta v).gpr = s.gpr := rfl
@[simp] theorem State.setInsta_mema (v : Byte) : (s.setInsta v).mema = s.mema := rfl
@[simp] theorem State.setInsta_insta (v : Byte) : (s.setInsta v).insta = v := rfl
@[simp] theorem State.setInsta_inreg (v : Byte) : (s.setInsta v).inreg = s.inreg := rfl
@[simp] theorem State.setInsta_outreg (v : Byte) : (s.setInsta v).outreg = s.outreg := rfl
@[simp] theorem State.setInsta_ram (v : Byte) : (s.setInsta v).ram = s.ram := rfl
@[simp] theorem State.setInsta_rom (v : Byte) : (s.setInsta v).rom = s.rom := rfl
@[simp] theorem State.setInsta_count (v : Byte) : (s.setInsta v).count = s.count := rfl
@[simp] theorem State.setInsta_input (v : Byte) : (s.setInsta v).input = s.input := rfl
@[simp] theorem State.setInsta_log (v : Byte) : (s.setInsta v).log = s.log := rfl

@[simp] theorem State.setOutreg_cfg (v : Byte) : (s.setOutreg v).cfg = s.cfg := rfl
@[simp] theorem State.setOutreg_pc (v : Byte) : (s.setOutreg v).pc = s.pc := rfl
@[simp] theorem State.setOutreg_ir (v : Byte) : (s.setOutreg v).ir = s.ir := rfl
@[simp] theorem State.setOutreg_acc (v : Byte) : (s.setOutreg v).acc = s.acc := rfl
@[simp] theorem State.setOutreg_gpr (v : Byte) : (s.setOutreg v).gpr = s.gpr := rfl
@[simp] theorem State.setOutreg_mema (v : Byte) : (s.setOutreg v).mema = s.mema := rfl
@[simp] theorem State.setOutreg_insta (v : Byte) : (s.setOutreg v).insta = s.insta := rfl
@[simp] theorem State.setOutreg_inreg (v : Byte) : (s.setOutreg v).inreg = s.inreg := rfl
@[simp] theorem State.setOutreg_outreg (v : Byte) : (s.setOutreg v).outreg = v := rfl
@[simp] theorem State.setOutreg_ram (v : Byte) : (s.setOutreg v).ram = s.ram := rfl
@[simp] theorem State.setOutreg_rom (v : Byte) : (s.setOutreg v).rom = s.rom := rfl
@[simp] theorem State.setOutreg_count (v : Byte) : (s.setOutreg v).count = s.count := rfl
@[simp] theorem State.setOutreg_input (v : Byte) : (s.setOutreg v).input = s.input := rfl
@[simp] theorem State.setOutreg_log (v : Byte) : (s.setOutreg v).log = s.log := rfl

@[simp] theorem State.setGpr_cfg (k : Nat) (v : Byte) : (s.setGpr k v).cfg = s.cfg := rfl
@[simp] theorem State.setGpr_pc (k : Nat) (v : Byte) : (s.setGpr k v).pc = s.pc := rfl
@[simp] theorem State.setGpr_ir (k : Nat) (v : Byte) : (s.setGpr k v).ir = s.ir := rfl
@[simp] theorem State.setGpr_acc (k : Nat) (v : Byte) : (s.setGpr k v).acc = s.acc := rfl
@[simp] theorem State.setGpr_gpr (k : Nat) (v : Byte) : (s.setGpr k v).gpr = s.gpr.set k v := rfl
@[simp] theorem State.setGpr_mema (k : Nat) (v : Byte) : (s.setGpr k v).mema = s.mema := rfl
@[simp] theorem State.setGpr_insta (k : Nat) (v : Byte) : (s.setGpr k v).insta = s.insta := rfl
@[simp] theorem State.setGpr_inreg (k : Nat) (v : Byte) : (s.setGpr k v).inreg = s.inreg := rfl
@[simp] theorem State.setGpr_outreg (k : Nat) (v : Byte) : (s.setGpr k v).outreg = s.outreg := rfl
@[simp] theorem State.setGpr_ram (k : Nat) (v : Byte) : (s.setGpr k v).ram = s.ram := rfl
@[simp] theorem State.setGpr_rom (k : Nat) (v : Byte) : (s.setGpr k v).rom = s.rom := rfl
@[simp] theorem State.setGpr_count (k : Nat) (v : Byte) : (s.setGpr k v).count = s.count := rfl
@[simp] theorem State.setGpr_input (k : Nat) (v : Byte) : (s.setGpr k v).input = s.input := rfl
@[simp] theorem State.setGpr_log (k : Nat) (v : Byte) : (s.setGpr k v).log = s.log := rfl

@[simp] theorem State.takeInput_cfg (v : Byte) (l : List Byte) : (s.takeInput v l).cfg = s.cfg := rfl
@[simp] theorem State.takeInput_pc (v : Byte) (l : List Byte) : (s.takeInput v l).pc = s.pc := rfl
@[simp] theorem State.takeInput_ir (v : Byte) (l : List Byte) : (s.takeInput v l).ir = s.ir := rfl
@[simp] theorem State.takeInput_acc (v : Byte) (l : List Byte) : (s.takeInput v l).acc = s.acc := rfl
@[simp] theorem State.takeInput_gpr (v : Byte) (l : List Byte) : (s.takeInput v l).gpr = s.gpr := rfl
@[simp] theorem State.takeInput_mema (v : Byte) (l : List Byte) : (s.takeInput v l).mema = s.mema := rfl
@[simp] theorem State.takeInput_insta (v : Byte) (l : List Byte) : (s.takeInput v l).insta = s.insta := rfl
@[simp] theorem State.takeInput_inreg (v : Byte) (l : List Byte) : (s.takeInput v l).inreg = v := rfl
@[simp] theorem State.takeInput_outreg (v : Byte) (l : List Byte) : (s.takeInput v l).outreg = s.outreg := rfl
@[simp] theorem State.takeInput_ram (v : Byte) (l : List Byte) : (s.takeInput v l).ram = s.ram := rfl
@[simp] theorem State.takeInput_rom (v : Byte) (l : List Byte) : (s.takeInput v l).rom = s.rom := rfl
@[simp] theorem State.takeInput_count (v : Byte) (l : List Byte) : (s.takeInput v l).count = s.count := rfl
@[simp] theorem State.takeInput_input (v : Byte) (l : List Byte) : (s.takeInput v l).input = l := rfl
@[simp] theorem State.takeInput_log (v : Byte) (l : List Byte) : (s.takeInput v l).log = s.log := rfl

@[simp] theorem State.emit_cfg (r : Report) : (s.emit r).cfg = s.cfg := rfl
@[simp] theorem State.emit_pc (r : Report) : (s.emit r).pc = s.pc := rfl
@[simp] theorem State.emit_ir (r : Report) : (s.emit r).ir = s.ir := rfl
@[simp] theorem State.emit_acc (r : Report) : (s.emit r).acc = s.acc := rfl
@[simp] theorem State.emit_gpr (r : Report) : (s.emit r).gpr = s.gpr := rfl
@[simp] theorem State.emit_mema (r : Report) : (s.emit r).mema = s.mema := rfl
@[simp] theorem State.emit_insta (r : Report) : (s.emit r).insta = s.insta := rfl
@[simp] theorem State.emit_inreg (r : Report) : (s.emit r).inreg = s.inreg := rfl
@[simp] theorem State.emit_outreg (r : Report) : (s.emit r).outreg = s.outreg := rfl
@[simp] theorem State.emit_ram (r : Report) : (s.emit r).ram = s.ram := rfl
@[simp] theorem State.emit_rom (r : Report) : (s.emit r).rom = s.rom := rfl
@[simp] theorem State.emit_count (r : Report) : (s.emit r).count = s.count := rfl
@[simp] theorem State.emit_input (r : Report) : (s.emit r).input = s.input := rfl
@[simp] theorem State.emit_log (r : Report) : (s.emit r).log = s.log ++ [r] := rfl

@[simp] theorem State.memWrite_cfg (a v : Byte) : (s.memWrite a v).cfg = s.cfg := rfl
@[simp] theorem State.memWrite_pc (a v : Byte) : (s.memWrite a v).pc = s.pc := rfl
@[simp] theorem State.memWrite_ir (a v : Byte) : (s.memWrite a v).ir = s.ir := rfl
@[simp] theorem State.memWrite_acc (a v : Byte) : (s.memWrite a v).acc = s.acc := rfl
@[simp] theorem State.memWrite_gpr (a v : Byte) : (s.memWrite a v).gpr = s.gpr := rfl
@[simp] theorem State.memWrite_mema (a v : Byte) : (s.memWrite a v).mema = s.mema := rfl
@[simp] theorem State.memWrite_insta (a v : Byte) : (s.memWrite a v).insta = s.insta := rfl
@[simp] theorem State.memWrite_inreg (a v : Byte) : (s.memWrite a v).inreg = s.inreg := rfl
@[simp] theorem State.memWrite_outreg (a v : Byte) : (s.memWrite a v).outreg = s.outreg := rfl
@[simp] theorem State.memWrite_ram (a v : Byte) : (s.memWrite a v).ram = s.ram.write a.toNat v := rfl
@[simp] theorem State.memWrite_rom (a v : Byte) : (s.memWrite a v).rom = s.rom := rfl
@[simp] theorem State.memWrite_count (a v : Byte) : (s.memWrite a v).count = s.count := rfl
@[simp] theorem State.memWrite_input (a v : Byte) : (s.memWrite a v).input = s.input := rfl
@[simp] theorem State.memWrite_log (a v : Byte) : (s.memWrite a v).log = s.log := rfl

@[simp] theorem State.fetch_cfg : (s.fetch).cfg = s.cfg := rfl
@[simp] theorem State.fetch_pc : (s.fetch).pc = trunc8 ((s.pc.toNat : Int) + 1) := rfl
@[simp] theorem State.fetch_ir : (s.fetch).ir = s.fetchWord := rfl
@[simp] theorem State.fetch_acc : (s.fetch).acc = s.acc := rfl
@[simp] theorem State.fetch_gpr : (s.fetch).gpr = s.gpr := rfl
@[simp] theorem State.fetch_mema : (s.fetch).mema = s.mema := rfl
@[simp] theorem State.fetch_insta : (s.fetch).insta = s.insta := rfl
@[simp] theorem State.fetch_inreg : (s.fetch).inreg = s.inreg := rfl
@[simp] theorem State.fetch_outreg : (s.fetch).outreg = s.outreg := rfl
@[simp] theorem State.fetch_ram : (s.fetch).ram = s.ram := rfl
@[simp] theorem State.fetch_rom : (s.fetch).rom = s.rom := rfl
@[simp] theorem State.fetch_count : (s.fetch).count = s.count := rfl
@[simp] theorem State.fetch_input : (s.fetch).input = s.input := rfl
@[simp] theorem State.fetch_log : (s.fetch).log = s.log := rfl

end Sys2Proof.Machine
end

