-- ==== Sys2Proof/Laws/Operands.lean ====
section
/-! SUPPORT. What a register read, a register write and an instruction that reads a register can do, each
said once. -/

namespace Sys2Proof.Machine

/-- Everything a register read that completes can do to the state (R90): nothing, take an input value,
or report an invalid id. -/
theorem readReg_cases {i : Nibble} {s t : State} {v : Byte} (h : readReg i s = some (v, t)) :
    t = s ∨ (resolve s.cfg i = .inp ∧ ∃ rest, s.input = v :: rest ∧ t = s.takeInput v rest) ∨
      (resolve s.cfg i = .invalid ∧ v = s.getGpr 0 ∧ t = s.emit (.badRegisterId i)) := by
  unfold readReg at h
  split at h
  case h_7 hi =>
    split at h
    · next w rest hin =>
      simp only [Option.some.injEq, Prod.mk.injEq] at h
      obtain ⟨rfl, rfl⟩ := h
      exact .inr (.inl ⟨hi, rest, hin, rfl⟩)
    · cases h
  case h_9 hi =>
    simp only [Option.some.injEq, Prod.mk.injEq] at h
    exact .inr (.inr ⟨hi, h.1.symm, h.2.symm⟩)
  all_goals
    simp only [Option.some.injEq, Prod.mk.injEq] at h
    exact .inl h.2.symm

/-- A register read waits exactly where the id is that of IN and no input value waits (R88). -/
theorem readReg_eq_none {i : Nibble} {s : State} :
    readReg i s = none ↔ resolve s.cfg i = .inp ∧ s.input = [] := by
  unfold readReg
  split
  case h_7 h => cases hin : s.input <;> simp [h]
  all_goals next h => simp [h]

/-- Everything a register write can do to the state (R91). -/
theorem writeReg_cases (i : Nibble) (v : Byte) (s : State) :
    (∃ k, resolve s.cfg i = .gpr k ∧ writeReg i v s = s.setGpr k v) ∨
    (resolve s.cfg i = .mema ∧ writeReg i v s = s.setMema v) ∨
    (resolve s.cfg i = .insta ∧ writeReg i v s = s.setInsta v) ∨
    (resolve s.cfg i ∈ [Slot.zero, .one, .min1, .inp] ∧ writeReg i v s = s.emit (.protectedWrite i)) ∨
    (resolve s.cfg i = .out ∧ writeReg i v s = s.setOutreg v) ∨
    (resolve s.cfg i = .invalid ∧ writeReg i v s = (s.setGpr 0 v).emit (.badRegisterId i)) := by
  cases h : resolve s.cfg i <;> simp [writeReg, h]

/-- An instruction that reads its register operand answers a next state by way of a completed read. -/
theorem withReg_next {i : Nibble} {s u : State} {f : Byte → State → State}
    (h : withReg i s f = .next u) : ∃ v t, readReg i s = some (v, t) ∧ u = f v t := by
  unfold withReg at h
  split at h
  · next v t hr => cases h; exact ⟨v, t, hr, rfl⟩
  · cases h

theorem withReg_of_read {i : Nibble} {s t : State} {v : Byte} (f : Byte → State → State)
    (h : readReg i s = some (v, t)) : withReg i s f = .next (f v t) := by
  simp [withReg, h]

theorem withReg_of_wait {i : Nibble} {s : State} (f : Byte → State → State)
    (h : readReg i s = none) : withReg i s f = .fault .awaitingInput := by
  simp [withReg, h]

/-- What a register read takes from the state and gives: the value, and what `inreg`, the input stream and
the log become. It depends on nothing but the configuration, the registers and the input. -/
def readOut (i : Nibble) (s : State) : Option (Byte × Byte × List Byte × List Report) :=
  match resolve s.cfg i with
  | .gpr k => some (s.getGpr k, s.inreg, s.input, [])
  | .mema => some (s.mema, s.inreg, s.input, [])
  | .insta => some (s.insta, s.inreg, s.input, [])
  | .zero => some (0, s.inreg, s.input, [])
  | .one => some (1, s.inreg, s.input, [])
  | .min1 => some (255, s.inreg, s.input, [])
  | .inp =>
    match s.input with
    | v :: rest => some (v, v, rest, [])
    | [] => none
  | .out => some (s.outreg, s.inreg, s.input, [])
  | .invalid => some (s.getGpr 0, s.inreg, s.input, [.badRegisterId i])

/-- A register read is `readOut` written into the state: the whole frame of a read. -/
theorem readReg_eq_readOut (i : Nibble) (s : State) :
    readReg i s = (readOut i s).map fun p =>
      (p.1, { s with inreg := p.2.1, input := p.2.2.1, log := s.log ++ p.2.2.2 }) := by
  unfold readReg readOut
  cases resolve s.cfg i
  case inp => cases h : s.input <;> simp [State.takeInput]
  case invalid => rfl
  all_goals simp

end Sys2Proof.Machine
end

