-- ==== Sys2Proof/Laws/Exec.lean ====
section
/-! SUPPORT. What an instruction and a step can do, each said once: the inversion lemmas later proofs
cite instead of unfolding `exec` and `step`. -/

namespace Sys2Proof.Machine

/-- The register operand of the nine instructions that read one, and the value they put into ACC. -/
def readerValue : Instr → Option (Nibble × (Byte → Byte → Byte))
  | .mvra r => some (r, fun _ v => v)
  | .add r => some (r, aluAdd)
  | .sub r => some (r, aluSub)
  | .mul r => some (r, aluMul)
  | .lls r => some (r, aluLls)
  | .lrs r => some (r, aluLrs)
  | .and r => some (r, aluAnd)
  | .or r => some (r, aluOr)
  | .xor r => some (r, aluXor)
  | .mvar _ => none
  | .lda _ => none
  | .sta _ => none
  | .mvah _ => none
  | .mval _ => none
  | .jumpz _ => none
  | .jumpn _ => none

theorem readOperand_eq (i : Instr) : readOperand i = (readerValue i).map Prod.fst := by
  cases i <;> rfl

/-- The nine readers have one meaning: read the operand, write ACC. -/
theorem exec_reader {i : Instr} {r : Nibble} {f : Byte → Byte → Byte}
    (h : readerValue i = some (r, f)) (s : State) :
    exec i s = withReg r s fun v t => t.setAcc (f s.acc v) := by
  cases i <;> simp only [readerValue, Option.some.injEq, Prod.mk.injEq, reduceCtorEq] at h <;>
    (obtain ⟨rfl, rfl⟩ := h; rfl)

/-- Everything an instruction that answers a next state can do. -/
theorem exec_cases {i : Instr} {s u : State} (h : exec i s = .next u) :
    (∃ r f v t, readerValue i = some (r, f) ∧ readReg r s = some (v, t) ∧ u = t.setAcc (f s.acc v)) ∨
    (∃ r, i = .mvar r ∧ u = writeReg r s.acc s) ∨
    (∃ k, i = .mvah k ∧ u = s.setAcc (setHighNibble s.acc k)) ∨
    (∃ k, i = .mval k ∧ u = s.setAcc (setLowNibble s.acc k)) ∨
    (∃ x, i = .lda x ∧ u = s.setAcc (s.memRead s.mema)) ∨
    (∃ x, i = .sta x ∧ u = s.memWrite s.mema s.acc) ∨
    (∃ x, i = .jumpz x ∧ u = jumpIf s.accZero s) ∨
    (∃ x, i = .jumpn x ∧ u = jumpIf s.accNegative s) := by
  cases hr : readerValue i with
  | some p =>
    obtain ⟨r, f⟩ := p
    rw [exec_reader hr] at h
    obtain ⟨v, t, hv, rfl⟩ := withReg_next h
    exact .inl ⟨r, f, v, t, rfl, hv, rfl⟩
  | none =>
    cases i <;> simp only [readerValue, reduceCtorEq] at hr <;> cases h
    · exact .inr (.inl ⟨_, rfl, rfl⟩)
    · exact .inr (.inr (.inr (.inr (.inl ⟨_, rfl, rfl⟩))))
    · exact .inr (.inr (.inr (.inr (.inr (.inl ⟨_, rfl, rfl⟩)))))
    · exact .inr (.inr (.inl ⟨_, rfl, rfl⟩))
    · exact .inr (.inr (.inr (.inl ⟨_, rfl, rfl⟩)))
    · exact .inr (.inr (.inr (.inr (.inr (.inr (.inl ⟨_, rfl, rfl⟩))))))
    · exact .inr (.inr (.inr (.inr (.inr (.inr (.inr ⟨_, rfl, rfl⟩))))))

/-- An instruction stops in one way only: its operand is IN and no input value waits (R88). -/
theorem exec_stops {i : Instr} {s : State} :
    (∃ u, exec i s = .next u) ∨
    (∃ r, readOperand i = some r ∧ readReg r s = none ∧ exec i s = .fault .awaitingInput) := by
  cases hr : readerValue i with
  | some p =>
    obtain ⟨r, f⟩ := p
    rw [exec_reader hr]
    cases hv : readReg r s with
    | none => exact .inr ⟨r, by simp [readOperand_eq, hr], hv, withReg_of_wait _ hv⟩
    | some q => obtain ⟨v, t⟩ := q; exact .inl ⟨_, withReg_of_read _ hv⟩
  | none =>
    refine .inl ?_
    cases i <;> simp only [readerValue, reduceCtorEq] at hr <;> exact ⟨_, rfl⟩

/-- The nine readers in terms of `readOut`: what they read decides all they change. -/
theorem exec_reader_next {i : Instr} {r : Nibble} {f : Byte → Byte → Byte}
    (h : readerValue i = some (r, f)) (s t : State) :
    exec i s = .next t ↔ ∃ p, readOut r s = some p ∧ t = { s with
      acc := f s.acc p.1, inreg := p.2.1, input := p.2.2.1, log := s.log ++ p.2.2.2 } := by
  rw [exec_reader h, withReg, readReg_eq_readOut]
  cases readOut r s with
  | none => simp
  | some p => simp [State.setAcc, eq_comm]

theorem jumpIf_cases (b : Bool) (s : State) :
    (b = true ∧ jumpIf b s = s.setPc s.insta) ∨ (b = false ∧ jumpIf b s = s) := by
  cases b
  · exact .inr ⟨rfl, rfl⟩
  · exact .inl ⟨rfl, rfl⟩

/-- Everything a step that answers a next state can do (R80): run the decoded instruction after fetch, or
report an unmapped opcode after fetch. -/
theorem step_cases {s t : State} (h : step s = .next t) :
    s.halted = false ∧ s.inputReady = true ∧
    ((∃ i, decode s.cfg.opmap s.fetchWord = .ok i ∧ exec i s.fetch = .next t) ∨
     (∃ opcode, decode s.cfg.opmap s.fetchWord = .error (.invalidOpcode opcode) ∧
       t = s.fetch.emit (.invalidOpcode opcode))) := by
  unfold step at h
  split at h
  · cases h
  · next hh =>
    split at h
    · cases h
    · next hi =>
      refine ⟨by simpa using hh, by simpa using hi, ?_⟩
      split at h
      · next i hd => exact .inl ⟨i, hd, h⟩
      · next r hd =>
        cases r with
        | invalidOpcode opcode => cases h; exact .inr ⟨opcode, hd, rfl⟩

end Sys2Proof.Machine
end

