-- ==== Sys2Proof/Laws/Loader.lean ====
section
/-! SUPPORT. What the ROM image of a load holds, and what a scan yields. -/

namespace Sys2Proof.Machine

theorem romFrom_bounds {k : Nat} {ws : List Byte} {c : Host.Cell} (h : c ∈ romFrom k ws) :
    k ≤ c.1 ∧ c.1 < k + ws.length ∧ c.2 ≠ Memory.blank := by
  induction ws generalizing k with
  | nil => cases h
  | cons w ws ih =>
    simp only [romFrom] at h
    split at h
    · have := ih h
      simp only [List.length_cons]; refine ⟨by omega, by omega, this.2.2⟩
    · next hw =>
      rcases List.mem_cons.mp h with rfl | h
      · exact ⟨Nat.le_refl _, by simp, hw⟩
      · have := ih h
        simp only [List.length_cons]; refine ⟨by omega, by omega, this.2.2⟩

/-- The image of at most 256 words is in canonical form. -/
theorem romFrom_wf {k : Nat} {ws : List Byte} (h : k + ws.length ≤ 256) : Memory.wf (romFrom k ws) := by
  refine ⟨?_, fun c hc => ?_⟩
  · clear h
    induction ws generalizing k with
    | nil => simp [romFrom]
    | cons w ws ih =>
      simp only [romFrom]
      split
      · exact ih
      · exact List.pairwise_cons.mpr ⟨fun d hd => (romFrom_bounds hd).1, ih⟩
  · have := romFrom_bounds hc
    exact ⟨by omega, this.2.2⟩

/-- The image read back: word `a - k` from index `k` on, zero past the end. -/
theorem romFrom_read (k : Nat) (ws : List Byte) (a : Nat) :
    Memory.read (romFrom k ws) a = if k ≤ a then ws.getD (a - k) 0 else 0 := by
  induction ws generalizing k with
  | nil => simp [romFrom]
  | cons w ws ih =>
    have key : Memory.read (romFrom k (w :: ws)) a =
        if a = k then w else Memory.read (romFrom (k + 1) ws) a := by
      simp only [romFrom]
      split
      · next hw =>
        split
        · next ha =>
          rw [ih, if_neg (by omega), hw]; rfl
        · rfl
      · rfl
    rw [key, ih]
    rcases Nat.lt_trichotomy a k with h | h | h
    · rw [if_neg (by omega), if_neg (by omega), if_neg (by omega)]
    · subst h; simp
    · rw [if_neg (by omega), if_pos (by omega), if_pos (by omega),
        show a - k = (a - (k + 1)) + 1 by omega, List.getD_cons_succ]

theorem scanBits_length (n : Nat) (cs : List Char) : (scanBits n cs).length ≤ n := by
  induction cs generalizing n with
  | nil => cases n <;> simp [scanBits]
  | cons c cs ih =>
    cases n with
    | zero => simp [scanBits]
    | succ n =>
      simp only [scanBits]
      split
      · simp
      · split
        · simpa using ih n
        · split
          · simpa using ih n
          · exact ih (n + 1)

end Sys2Proof.Machine
end

