-- ==== Sys2Proof/Laws/Namespace.lean ====
section
/-! SUPPORT. `resolve` in the terms of Safety.lean: which ids are general-purpose, special and invalid. -/

namespace Sys2Proof.Machine

theorem resolve_of_isGpr {c : Config} {r : Nibble} (h : IsGpr c r) : resolve c r = .gpr r.toNat := by
  simp only [resolve, if_pos (show r.toNat < c.ngpr from h)]

/-- The slot of a special register. -/
def Special.slot : Special → Slot
  | .mema => .mema
  | .insta => .insta
  | .zero => .zero
  | .one => .one
  | .min1 => .min1
  | .inp => .inp
  | .out => .out

theorem resolve_of_isSpecial {c : Config} {r : Nibble} {q : Special} (h : IsSpecial c r q) :
    resolve c r = Special.slot q := by
  obtain ⟨hg, hl, hi, ho⟩ := h
  have hg : ¬ r.toNat < c.ngpr := hg
  simp only [resolve, if_neg hg, hl]
  cases q <;> simp_all [Special.slot]

theorem resolve_of_isInvalid {c : Config} {r : Nibble} (h : IsInvalid c r) :
    resolve c r = .invalid := by
  obtain ⟨hg, hl | ⟨hl, hx⟩ | ⟨hl, hx⟩⟩ := h <;>
    have hg : ¬ r.toNat < c.ngpr := hg
  · simp only [resolve, if_neg hg, hl]
  · simp [resolve, if_neg hg, hl, hx]
  · simp [resolve, if_neg hg, hl, hx]

/-- Every id is of one of the three kinds. -/
theorem id_cases (c : Config) (r : Nibble) :
    IsGpr c r ∨ (∃ q, IsSpecial c r q) ∨ IsInvalid c r := by
  by_cases hg : IsGpr c r
  · exact .inl hg
  · refine .inr ?_
    cases hl : c.special.lookup r with
    | none => exact .inr ⟨hg, .inl hl⟩
    | some q =>
      by_cases hi : q = .inp ∧ c.hasIn = false
      · exact .inr ⟨hg, .inr (.inl ⟨by rw [hl, hi.1], hi.2⟩)⟩
      · by_cases ho : q = .out ∧ c.hasOut = false
        · exact .inr ⟨hg, .inr (.inr ⟨by rw [hl, ho.1], ho.2⟩)⟩
        · exact .inl ⟨q, hg, hl, by simpa using hi, by simpa using ho⟩

theorem resolve_eq_special {c : Config} {r : Nibble} {q : Special} :
    resolve c r = Special.slot q ↔ IsSpecial c r q := by
  refine ⟨fun h => ?_, resolve_of_isSpecial⟩
  rcases id_cases c r with hg | ⟨p, hp⟩ | hi
  · rw [resolve_of_isGpr hg] at h; cases q <;> cases h
  · rw [resolve_of_isSpecial hp] at h
    cases p <;> cases q <;> first | exact hp | cases h
  · rw [resolve_of_isInvalid hi] at h; cases q <;> cases h

theorem resolve_eq_invalid {c : Config} {r : Nibble} : resolve c r = .invalid ↔ IsInvalid c r := by
  refine ⟨fun h => ?_, resolve_of_isInvalid⟩
  rcases id_cases c r with hg | ⟨p, hp⟩ | hi
  · rw [resolve_of_isGpr hg] at h; cases h
  · rw [resolve_of_isSpecial hp] at h; cases p <;> cases h
  · exact hi

theorem resolve_eq_gpr {c : Config} {r : Nibble} {k : Nat} :
    resolve c r = .gpr k ↔ IsGpr c r ∧ k = r.toNat := by
  rcases id_cases c r with hg | ⟨p, hp⟩ | hi
  · rw [resolve_of_isGpr hg]; simp [hg, eq_comm]
  · rw [resolve_of_isSpecial hp]; cases p <;> simp [Special.slot, hp.1]
  · rw [resolve_of_isInvalid hi]; simp [hi.1]

/-- The three kinds exclude each other. -/
theorem IsSpecial.not_isInvalid {c : Config} {r : Nibble} {q : Special} (h : IsSpecial c r q) :
    ¬ IsInvalid c r := fun hi => by
  have := resolve_of_isInvalid hi
  rw [resolve_of_isSpecial h] at this
  cases q <;> cases this

theorem IsGpr.not_isSpecial {c : Config} {r : Nibble} (h : IsGpr c r) (q : Special) :
    ¬ IsSpecial c r q := fun hq => hq.1 h

theorem IsGpr.not_isInvalid {c : Config} {r : Nibble} (h : IsGpr c r) : ¬ IsInvalid c r :=
  fun hi => hi.1 h

theorem IsSpecial.unique {c : Config} {r : Nibble} {p q : Special} (hp : IsSpecial c r p)
    (hq : IsSpecial c r q) : p = q := Option.some.inj (hp.2.1.symm.trans hq.2.1)

/-- `Readable` says that the register read completes. -/
theorem readable_iff {s : State} {r : Nibble} : Readable s r ↔ readReg r s ≠ none := by
  unfold Readable
  rw [Ne, readReg_eq_none, show Slot.inp = Special.slot .inp from rfl, resolve_eq_special]

end Sys2Proof.Machine
end

