-- ==== Sys2Proof/Laws/PerInstr.lean ====
section
/-! SUPPORT. The family `Fields`: an instruction is its mnemonic and its operand field, and CFG0 gives it
an opcode. One lemma per constructor. -/

namespace Sys2Proof.Laws.Fields

/-- Splitting an instruction into mnemonic and operand field loses nothing, and CFG0 encodes it. -/
def Statement (i : Instr) : Prop := i.mnemonic.withOperand i.operand = i ∧ i.wf cfg0

theorem mvra (r : Nibble) : Statement (.mvra r) := ⟨rfl, wf_cfg0 _⟩
theorem mvar (r : Nibble) : Statement (.mvar r) := ⟨rfl, wf_cfg0 _⟩
theorem lda (x : Nibble) : Statement (.lda x) := ⟨rfl, wf_cfg0 _⟩
theorem sta (x : Nibble) : Statement (.sta x) := ⟨rfl, wf_cfg0 _⟩
theorem mvah (k : Nibble) : Statement (.mvah k) := ⟨rfl, wf_cfg0 _⟩
theorem mval (k : Nibble) : Statement (.mval k) := ⟨rfl, wf_cfg0 _⟩
theorem jumpz (x : Nibble) : Statement (.jumpz x) := ⟨rfl, wf_cfg0 _⟩
theorem jumpn (x : Nibble) : Statement (.jumpn x) := ⟨rfl, wf_cfg0 _⟩
theorem add (r : Nibble) : Statement (.add r) := ⟨rfl, wf_cfg0 _⟩
theorem sub (r : Nibble) : Statement (.sub r) := ⟨rfl, wf_cfg0 _⟩
theorem mul (r : Nibble) : Statement (.mul r) := ⟨rfl, wf_cfg0 _⟩
theorem lls (r : Nibble) : Statement (.lls r) := ⟨rfl, wf_cfg0 _⟩
theorem lrs (r : Nibble) : Statement (.lrs r) := ⟨rfl, wf_cfg0 _⟩
theorem and (r : Nibble) : Statement (.and r) := ⟨rfl, wf_cfg0 _⟩
theorem or (r : Nibble) : Statement (.or r) := ⟨rfl, wf_cfg0 _⟩
theorem xor (r : Nibble) : Statement (.xor r) := ⟨rfl, wf_cfg0 _⟩

end Sys2Proof.Laws.Fields
end

