-- ==== Sys2Proof/Laws/Step.lean ====
section
/-! SUPPORT. Fetch, and that a word placed by `withFetchWord` is the one the next step runs. -/

namespace Sys2Proof.Machine

theorem fetch_eq (s : State) :
    s.fetch = { s with ir := s.rom.read s.pc.toNat, pc := s.pc + 1 } := by
  unfold State.fetch
  rw [trunc8_succ]
  rfl

@[simp] theorem fetchWord_withFetchWord (s : State) (w : Nat) :
    (s.withFetchWord 8 w).fetchWord = BitVec.ofNat 8 (w % 2 ^ 8) := by
  unfold State.withFetchWord State.fetchWord State.romRead
  simp [Memory.read_write]

/-- With its word placed, the machine is not halted, in either form of the halting condition. -/
theorem halted_withFetchWord (s : State) (nbits w : Nat) : (s.withFetchWord nbits w).halted = false := by
  have hp : (zext9 s.pc).toNat = s.pc.toNat := by
    unfold zext9
    rw [BitVec.toNat_setWidth]
    have := s.pc.isLt
    omega
  have hlt := s.pc.isLt
  have h1 : (zext9 s.pc + 1).toNat = s.pc.toNat + 1 := by
    rw [BitVec.toNat_add, hp]
    show (s.pc.toNat + 1) % 512 = _
    omega
  have key : s.pc.toNat < (s.withFetchWord nbits w).count.toNat := by
    simp only [State.withFetchWord]
    split
    · omega
    · next h => rw [BitVec.le_def, hp] at h; omega
  unfold State.halted
  have hpc : zext9 (s.withFetchWord nbits w).pc = zext9 s.pc := rfl
  rw [hpc]
  split
  · simp only [decide_eq_false_iff_not, BitVec.lt_def, hp]; omega
  · simp only [decide_eq_false_iff_not, BitVec.le_def, hp]; omega

/-- In a configuration without an input register no machine ever holds (R88). -/
theorem inputReady_of_noIn {s : State} (h : s.cfg.hasIn = false) : s.inputReady = true := by
  have hr : ∀ r, s.starved r = false := by
    intro r
    have : resolve s.cfg r ≠ .inp := by
      unfold resolve
      split
      · simp
      · split <;> first | (simp [h]; done) | (split <;> simp)
    simp [State.starved, this]
  unfold State.inputReady
  split
  · split <;> simp [hr]
  · rfl

end Sys2Proof.Machine
end

