-- ==== Sys2Proof/Tests/Slice0.lean ====
section
/-! SUPPORT. Small tests, each from a vector of 95_test_vectors.md or an example of a rule (named in its
comment), the smoke tests of the well-formedness checks, and a witness for every statement with
hypotheses. -/

namespace Sys2Proof.Tests

open Sys2Proof.Machine

/-! ## Helpers -/

/-- CFG0 at `pc = 0` with one loaded word. -/
def one (w : Byte) : State := { State.reset with rom := [(0, w)], count := 1 }

/-- CFG0 with a full ROM (`count = 256`) and one word at an index. -/
def full (a : Byte) (w : Byte) : State :=
  { State.reset with pc := a, rom := [(a.toNat, w)], count := 256 }

def after (s : State) : Option State :=
  match step s with
  | .next t => some t
  | .fault _ => none
  | .refused _ => none

/-- A configuration with IN and OUT: six general-purpose registers, ids 6 to 12 special. -/
def cfgIO : Config :=
  { cfg0 with
    ngpr := 6
    special := [(6, .mema), (7, .insta), (8, .zero), (9, .one), (10, .min1), (11, .inp), (12, .out)]
    hasIn := true
    hasOut := true }

/-- A partial OPMAP: opcode 15 unmapped. -/
def cfgPartial : Config := { cfg0 with opmap := opmap0.take 15 }

/-- The machine of `cfgIO` with one loaded word and some input. -/
def io (w : Byte) (input : List Byte) : State :=
  { State.resetFor cfgIO with rom := [(0, w)], count := 1, input := input }

/-! ## Well-formedness smoke -/

theorem test_cfg0_legal : cfg0.legal := by decide
theorem test_cfgIO_legal : cfgIO.legal := by decide
theorem test_ngpr_low_refused : ¬ ({ cfg0 with ngpr := 5 } : Config).ngprLegal := by decide
theorem test_ngpr_high_refused : ¬ ({ cfg0 with ngpr := 10 } : Config).ngprLegal := by decide
theorem test_special_id_twice_refused :
    ¬ ({ cfg0 with special := (8, .out) :: special0, hasOut := true } : Config).specialLegal := by decide
theorem test_special_not_injective_refused :
    ¬ ({ cfg0 with special := (13, .mema) :: special0 } : Config).specialLegal := by decide
theorem test_special_below_ngpr_refused : ¬ ({ cfg0 with ngpr := 9 } : Config).specialLegal := by decide
theorem test_special_without_min1_refused :
    ¬ ({ cfg0 with special := special0.take 4 } : Config).specialLegal := by decide
theorem test_special_in_without_hasIn_refused :
    ¬ ({ cfg0 with special := (13, .inp) :: special0 } : Config).specialLegal := by decide
theorem test_special_hasOut_without_out_refused :
    ¬ ({ cfg0 with hasOut := true } : Config).specialLegal := by decide
theorem test_opmap_short_refused : ¬ cfgPartial.opmapLegal := by decide
theorem test_opmap_opcode_twice_refused :
    ¬ ({ cfg0 with opmap := opmap0.take 15 ++ [(1, .XOR)] } : Config).opmapLegal := by decide
theorem test_opmap_mnemonic_twice_refused :
    ¬ ({ cfg0 with opmap := opmap0.take 15 ++ [(15, .OR)] } : Config).opmapLegal := by decide
theorem test_opmap_zero_not_mvra_refused :
    ¬ ({ cfg0 with opmap := [(0, .MVAR), (1, .MVRA)] ++ opmap0.drop 2 } : Config).opmapLegal := by decide
theorem test_partial_opcode_twice_refused :
    ¬ ({ cfg0 with opmap := [(1, .ADD), (1, .SUB)] } : Config).opmapPartial := by decide
theorem test_unmapped_instruction_refused : ¬ (Instr.xor 6).wf cfgPartial := by decide
theorem test_memory_unsorted_refused : ¬ Memory.wf [(2, 1), (1, 1)] := by decide
theorem test_memory_blank_entry_refused : ¬ Memory.wf [(2, 0)] := by decide
theorem test_memory_outside_refused : ¬ Memory.wf [(256, 1)] := by decide

/-! ## Decoding: words written out from 30_encoding.md R65 -/

theorem test_decode_mvra : decode opmap0 0b00000011 = .ok (.mvra 3) := rfl
theorem test_decode_mvar : decode opmap0 0b00011010 = .ok (.mvar 10) := rfl
theorem test_decode_lda : decode opmap0 0b00100000 = .ok (.lda 0) := rfl
theorem test_decode_sta : decode opmap0 0b00111101 = .ok (.sta 13) := rfl
theorem test_decode_mvah : decode opmap0 0b01001111 = .ok (.mvah 15) := rfl
theorem test_decode_mval : decode opmap0 0b01011010 = .ok (.mval 10) := rfl
theorem test_decode_jumpz : decode opmap0 0b01101111 = .ok (.jumpz 15) := rfl
theorem test_decode_jumpn : decode opmap0 0b01110000 = .ok (.jumpn 0) := rfl
theorem test_decode_add : decode opmap0 0b10000001 = .ok (.add 1) := rfl
theorem test_decode_sub : decode opmap0 0b10010010 = .ok (.sub 2) := rfl
theorem test_decode_mul : decode opmap0 0b10101100 = .ok (.mul 12) := rfl
theorem test_decode_lls : decode opmap0 0b10110100 = .ok (.lls 4) := rfl
theorem test_decode_lrs : decode opmap0 0b11000100 = .ok (.lrs 4) := rfl
theorem test_decode_and : decode opmap0 0b11010101 = .ok (.and 5) := rfl
theorem test_decode_or : decode opmap0 0b11100101 = .ok (.or 5) := rfl
theorem test_decode_xor : decode opmap0 0b11111111 = .ok (.xor 15) := rfl
theorem test_decode_table_word : decodeTableWord 8 0x4A = some (.mvah 10) := rfl
theorem test_encode_mvah : encode opmap0 (.mvah 10) = some 0x4A := rfl
theorem test_fetch_word_runs : (after (State.reset.withFetchWord 8 0x4A)).map (fun t => (t.acc, t.ir, t.pc)) =
    some (0xA0, 0x4A, 1) := by decide

/-! ## Instructions -/

/-- V-M1, V-M8. -/
theorem test_mvra_gpr : (after { one 0x03 with acc := 0x11, gpr := [0, 0, 0, 0x7E, 0, 0, 0, 0] }).map
    (fun t => (t.acc, t.pc, t.ir, t.log)) = some (0x7E, 1, 0x03, []) := by decide
theorem test_mvra_invalid : (after { one 0x0F with acc := 0x11, gpr := [0x77, 0, 0, 0, 0, 0, 0, 0] }).map
    (fun t => (t.acc, t.log)) = some (0x77, [.badRegisterId 15]) := by decide
/-- V-M12, V-M15. -/
theorem test_mvar_protected : (after { one 0x1A with acc := 0xC3 }) =
    some { one 0x1A with acc := 0xC3, pc := 1, ir := 0x1A, log := [.protectedWrite 10] } := by decide
theorem test_mvar_invalid : (after { one 0x1E with acc := 0xC3, gpr := [1, 0, 0, 0, 0, 0, 0, 0] }).map
    (fun t => (t.gpr, t.acc, t.log)) =
    some ([0xC3, 0, 0, 0, 0, 0, 0, 0], 0xC3, [.badRegisterId 14]) := by decide
/-- V-M16, V-M18. -/
theorem test_mvah : (after { one 0x45 with acc := 0x3C }).map (·.acc) = some 0x5C := by decide
theorem test_mvah_15 : (after (one 0x4F)).map (fun t => (t.acc, t.log)) = some (0xF0, []) := by decide
/-- V-M19, V-M20. -/
theorem test_mval : (after { one 0x5A with acc := 0x50 }).map (·.acc) = some 0x5A := by decide
theorem test_mval_0 : (after { one 0x50 with acc := 0xFF }).map (·.acc) = some 0xF0 := by decide
/-- V-L2, V-L3. -/
theorem test_lda : (after { one 0x2F with mema := 0xFF, ram := [(0xFF, 0x3C)] }).map
    (fun t => (t.acc, t.mema, t.log)) = some (0x3C, 0xFF, []) := by decide
theorem test_lda_unwritten : (after { one 0x20 with acc := 0x77, mema := 0x80 }).map (·.acc) = some 0 := by
  decide
/-- V-L4; storing 0 removes the entry. -/
theorem test_sta : (after { one 0x30 with acc := 0xA5, mema := 0x10 }).map (fun t => (t.ram, t.acc, t.mema)) =
    some ([(0x10, 0xA5)], 0xA5, 0x10) := by decide
theorem test_sta_zero : (after { one 0x3D with mema := 0x10, ram := [(0x10, 1), (0x11, 2)] }).map (·.ram) =
    some [(0x11, 2)] := by decide
/-- V-J1, V-J4. -/
theorem test_jumpz_taken : (after { full 11 0x60 with insta := 0x24 }).map (·.pc) = some 0x24 := by decide
theorem test_jumpz_not_taken : (after { full 255 0x6F with acc := 5, insta := 0x24 }).map (·.pc) = some 0 := by
  decide
/-- V-J6, V-J7. -/
theorem test_jumpn_taken : (after { full 13 0x70 with acc := 0x80, insta := 5 }).map (·.pc) = some 5 := by decide
theorem test_jumpn_not_taken : (after { full 13 0x70 with acc := 0x7F, insta := 5 }).map (·.pc) = some 14 := by
  decide
/-- V-A1, V-A3. -/
theorem test_add : (after { one 0x81 with acc := 0xFA, gpr := [0, 0x0A, 0, 0, 0, 0, 0, 0] }).map (·.acc) =
    some 4 := by decide
theorem test_add_min1 : (after (one 0x8C)).map (·.acc) = some 0xFF := by decide
/-- V-A7, V-A11. -/
theorem test_sub : (after { one 0x92 with acc := 3, gpr := [0, 0, 5, 0, 0, 0, 0, 0] }).map (·.acc) =
    some 0xFE := by decide
theorem test_sub_min1 : (after { one 0x9C with acc := 7 }).map (·.acc) = some 8 := by decide
/-- V-A12, V-A17. -/
theorem test_mul : (after { one 0xA0 with acc := 0xC8, gpr := [3, 0, 0, 0, 0, 0, 0, 0] }).map (·.acc) =
    some 0x58 := by decide
theorem test_mul_min1 : (after { one 0xAC with acc := 0x80 }).map (·.acc) = some 0x80 := by decide
/-- V-A22, V-A23. -/
theorem test_lls_8 : (after { one 0xB4 with acc := 0x81, gpr := [0, 0, 0, 0, 8, 0, 0, 0] }).map (·.acc) =
    some 0x81 := by decide
theorem test_lls_min1 : (after { one 0xBC with acc := 1 }).map (·.acc) = some 0x80 := by decide
/-- V-A25, V-A29. -/
theorem test_lrs_logical : (after { one 0xC4 with acc := 0x81, gpr := [0, 0, 0, 0, 1, 0, 0, 0] }).map (·.acc) =
    some 0x40 := by decide
theorem test_lrs_masked : (after { one 0xC4 with acc := 0xFF, gpr := [0, 0, 0, 0, 0xF4, 0, 0, 0] }).map (·.acc) =
    some 0x0F := by decide
/-- V-A30, V-A33, V-A36, V-A39. -/
theorem test_and : (after { one 0xD5 with acc := 0xF0, gpr := [0, 0, 0, 0, 0, 0x3C, 0, 0] }).map (·.acc) =
    some 0x30 := by decide
theorem test_or : (after { one 0xE5 with acc := 0xF0, gpr := [0, 0, 0, 0, 0, 0x3C, 0, 0] }).map (·.acc) =
    some 0xFC := by decide
theorem test_xor : (after { one 0xF5 with acc := 0xF0, gpr := [0, 0, 0, 0, 0, 0x3C, 0, 0] }).map (·.acc) =
    some 0xCC := by decide
theorem test_xor_invalid : (after { one 0xFF with acc := 0x0F, gpr := [0xFF, 0, 0, 0, 0, 0, 0, 0] }).map
    (fun t => (t.acc, t.log)) = some (0xF0, [.badRegisterId 15]) := by decide

/-! ## The step, halting, input, loader -/

/-- R81, R87 item 1: halted only past COUNT; the exclusive form halts at COUNT. -/
theorem test_boundary_runs : ({ one 0x8B with pc := 1 } : State).halted = false ∧
    ({ one 0x8B with pc := 2 } : State).halted = true ∧
    ({ one 0x8B with pc := 1, cfg := { cfg0 with haltInclusive := false } } : State).halted = true := by
  decide
/-- R88, R92: MVRA IN takes the head of the input; with none the machine holds; MVAR IN is suppressed. -/
theorem test_in_read : (after (io 0x0B [7, 9])).map (fun t => (t.acc, t.inreg, t.input)) =
    some (7, 7, [9]) := by decide
theorem test_in_hold : step (io 0x0B []) = .fault .awaitingInput := rfl
theorem test_in_write : (after { io 0x1B [7] with acc := 3 }).map (fun t => (t.inreg, t.input, t.log)) =
    some (0, [7], [.protectedWrite 11]) := by decide
/-- R19: OUT is an ordinary cell. -/
theorem test_out_write : (after { io 0x1C [] with acc := 3 }).map (fun t => (t.outreg, t.log)) =
    some (3, []) := by decide
/-- R67: an unmapped opcode. -/
theorem test_invalid_opcode : after { one 0xF6 with cfg := cfgPartial } =
    some { one 0xF6 with cfg := cfgPartial, pc := 1, ir := 0xF6, log := [.invalidOpcode 15] } := by decide
/-- The loader vector of 95_test_vectors.md 2.6. -/
theorem test_loader : loadFile cfg0 (some ("01000101 ; MVAH #5\n01011010\n; a comment with 0101 in it\n\n".toList ++
      "0001 0000   ; MVAR R0\n0000\n0100;0101\n000000001111\n".toList)) =
    ⟨[0x45, 0x5A, 0x10, 0x00], [.malformedLine 6, .malformedLine 7]⟩ := by decide
/-- R178, U6: the two paddings of policy (a). -/
theorem test_loader_pad : (loadFile { cfg0 with loaderStrict := false } (some "11\n".toList)).words = [0x03] ∧
    (loadFile { cfg0 with loaderStrict := false, padSide := .bitsHigh } (some "11\n".toList)).words = [0xC0] := by
  decide
/-- R92: after halt the host sees `inreg`; CFG0 has no such cell. -/
theorem test_handover_inreg : ({ io 0x0B [] with pc := 2, inreg := 7 } : State).handover.map (·.inreg) =
    some (some 7) ∧ ({ one 0x8B with pc := 2 } : State).handover.map (·.inreg) = some none := ⟨rfl, rfl⟩
/-- R69: the spellings of the scenario of 95_test_vectors.md and of an invalid id; R71: a line. -/
theorem test_listing : listing cfg0 (.mvah 5) = "MVAH #5" ∧ listing cfg0 (.mvar 0) = "MVAR R0" ∧
    listing cfg0 (.mvra 10) = "MVRA ZERO" ∧ listing cfg0 (.add 13) = "ADD id13" ∧
    listing cfg0 (.jumpz 15) = "JUMPZ" := ⟨rfl, rfl, rfl, rfl, rfl⟩
theorem test_bit_line : bitLine 0x4A = ['0', '1', '0', '0', '1', '0', '1', '0'] := rfl
/-- R70: the idioms' encodings. -/
theorem test_idioms : (loadConstant 0x5A).map (encode opmap0) = [some 0x45, some 0x5A] ∧
    encode opmap0 clearAcc = some 0x0A ∧ jumpAlways.map (encode opmap0) = [some 0x0A, some 0x60] :=
  ⟨rfl, rfl, rfl⟩
/-- R184: the report port of a step. -/
theorem test_report_port : (after (one 0x1A)).map (reportPort (one 0x1A)) = some (some (3, 10)) := by decide

/-! ## Witnesses -/

theorem io_kinds : IsGpr cfgIO 0 ∧ IsGpr cfgIO 5 ∧ IsSpecial cfgIO 6 .mema ∧ IsSpecial cfgIO 7 .insta ∧
    IsSpecial cfgIO 8 .zero ∧ IsSpecial cfgIO 9 .one ∧ IsSpecial cfgIO 10 .min1 ∧
    IsSpecial cfgIO 11 .inp ∧ IsSpecial cfgIO 12 .out ∧ IsInvalid cfgIO 13 ∧ IsInvalid cfgIO 15 := by
  unfold IsInvalid IsSpecial IsGpr
  refine ⟨?_, ?_, ?_, ?_, ?_, ?_, ?_, ?_, ?_, ?_, ?_⟩ <;> decide

/-- Every register id is readable in a machine with input waiting, the ids of `io_kinds` among them. -/
theorem io_readable (r : Nibble) : Readable (io 0x0B [7]) r := fun h => by cases h.2

theorem witness_EncodedInstructionDecodesToItself : cfg0.opmapLegal := by decide
theorem witness_EveryWordDecodesAndEncodesBack : cfgIO.opmapLegal := by decide
theorem witness_PartialMapEncodingDecodesBack :
    cfgPartial.opmapPartial ∧ ¬ cfgPartial.opmapLegal ∧ (Instr.or 15).wf cfgPartial := by decide
theorem witness_StepRunsDecodedInstruction : (full 255 0x81).halted = false ∧ (full 255 0x81).inputReady = true ∧
    decode (full 255 0x81).cfg.opmap ((full 255 0x81).rom.read (full 255 0x81).pc.toNat) = .ok (.add 1) :=
  ⟨rfl, rfl, rfl⟩
theorem witness_UnmappedOpcodeReportsAndContinues :
    (({ one 0xF6 with cfg := cfgPartial } : State).halted = false ∧
      ({ one 0xF6 with cfg := cfgPartial } : State).cfg.opmap.lookup (opcodeOf 0xF6) = none) ∧
    ((one 0x1A).cfg.opmapLegal ∧ ∃ t, step (one 0x1A) = .next t) :=
  ⟨by decide, by decide, _, rfl⟩
theorem witness_HaltedComparesPcWithCount : (one 1).cfg.haltInclusive = true ∧
    ({ one 1 with cfg := { cfg0 with haltInclusive := false } } : State).cfg.haltInclusive = false :=
  ⟨rfl, rfl⟩
theorem witness_HoldsExactlyOnReadOfEmptyInput : (io 0x8B []).halted = false ∧
    decode (io 0x8B []).cfg.opmap ((io 0x8B []).rom.read 0) = .ok (.add 11) ∧
    IsSpecial (io 0x8B []).cfg 11 .inp ∧ (io 0x8B []).input = [] :=
  ⟨rfl, rfl, io_kinds.2.2.2.2.2.2.2.1, rfl⟩
theorem witness_EveryInstructionCompletes : (one 1).cfg.hasIn = false ∧ (io 1 []).cfg.hasIn = true :=
  ⟨rfl, rfl⟩
theorem witness_IrHoldsTheFetchedWordAndIsNeverRead : (∃ t, step (full 255 0x81) = .next t) ∧
    ∃ t, exec (.add 1) (full 255 0x81) = .next t := ⟨⟨_, rfl⟩, _, rfl⟩
theorem witness_PcWrittenOnlyByFetchAndTakenJumps :
    (∃ t, step { full 11 0x60 with insta := 0x24 } = .next t ∧ t.pc ≠ 12) ∧
    (∃ t, exec (.jumpn 0) { full 11 0x70 with acc := 0x80, insta := 0x24 } = .next t ∧ t.pc ≠ 11) ∧
    (decode opmap0 ((full 11 0x60).rom.read 11) = .ok (.jumpz 0) ∧ (full 11 0x60).acc = 0) ∧
    (decode opmap0 ((full 255 0x70).rom.read 255) = .ok (.jumpn 0) ∧
      ∃ t, step { full 255 0x70 with acc := 0x80 } = .next t) :=
  ⟨⟨_, rfl, by decide⟩, ⟨_, rfl, by decide⟩, ⟨rfl, rfl⟩, rfl, _, rfl⟩
theorem witness_NamespaceOfCfg0 : (one 1).cfg = cfg0 := rfl
theorem witness_ConstantRegistersAreWired : IsSpecial (io 0x1A [7]).cfg 8 .zero ∧
    IsSpecial (io 0x1A [7]).cfg 9 .one ∧ IsSpecial (io 0x1A [7]).cfg 10 .min1 ∧
    (∃ t, step (io 0x1A [7]) = .next t) ∧
    ∃ t, exec (.mvar 10) (io 0x1A [7]) = .next t ∧ t.log = (io 0x1A [7]).log ++ [.protectedWrite 10] :=
  ⟨io_kinds.2.2.2.2.1, io_kinds.2.2.2.2.2.1, io_kinds.2.2.2.2.2.2.1, ⟨_, rfl⟩, _, rfl, rfl⟩
theorem witness_GprWrittenOnlyByMvar :
    (∃ t, exec (.mvar 7) { one 0x17 with acc := 3 } = .next t ∧ t.gpr ≠ (one 0x17).gpr) ∧
    ∃ t, exec (.lda 7) (one 0x27) = .next t := ⟨⟨_, rfl, by decide⟩, _, rfl⟩
theorem witness_MemaWrittenOnlyThroughItsId :
    (∃ t, exec (.mvar 8) { one 0x18 with acc := 3 } = .next t ∧ t.mema ≠ (one 0x18).mema) ∧
    IsSpecial (io 1 []).cfg 6 .mema := ⟨⟨_, rfl, by decide⟩, io_kinds.2.2.1⟩
theorem witness_InstaWrittenOnlyThroughItsId :
    (∃ t, exec (.mvar 9) { one 0x19 with acc := 3 } = .next t ∧ t.insta ≠ (one 0x19).insta) ∧
    IsSpecial (io 1 []).cfg 7 .insta ∧ (one 0x60).acc = 0 ∧
    128 ≤ ({ one 0x70 with acc := 128 } : State).acc.toNat :=
  ⟨⟨_, rfl, by decide⟩, io_kinds.2.2.2.1, rfl, by decide⟩
theorem witness_MvraCompletes (r : Nibble) : Readable (io 0x0B [7]) r := io_readable r
theorem witness_NibblePairBuildsEveryByte : (io 1 []).gpr.length = (io 1 []).cfg.ngpr ∧
    IsGpr (io 1 []).cfg 5 := ⟨rfl, io_kinds.2.1⟩
theorem witness_StoreThenLoadReturnsTheByte :
    ∃ t, exec (.sta 0) { one 0x30 with acc := 1, mema := 255 } = .next t ∧ t.ram ≠ (one 0x30).ram :=
  ⟨_, rfl, by decide⟩
theorem witness_RamTouchedOnlyByLdaAndStaAtMema :
    (∃ t, exec (.sta 0) { one 0x30 with acc := 1, mema := 255 } = .next t ∧
      t.memRead 255 ≠ (one 0x30).memRead 255) ∧
    ∃ t, exec (.mvar 0) (one 0x10) = .next t ∧ ∀ x, Instr.mvar 0 ≠ .lda x ∧ Instr.mvar 0 ≠ .sta x :=
  ⟨⟨_, rfl, by decide⟩, _, rfl, by decide⟩
theorem witness_StoresNeverReachFetch : ∃ t, step { one 0x30 with acc := 1 } = .next t := ⟨_, rfl⟩
theorem witness_LoadTimeStateIsConstant : (∃ t, step (one 0x30) = .next t) ∧
    ∃ t, exec (.xor 12) (one 0xFC) = .next t := ⟨⟨_, rfl⟩, _, rfl⟩
theorem witness_JumpsGoToInstaOrFallThrough :
    ((one 0x60).cfg.haltInclusive = true ∧ (∃ t, exec (.jumpz 0) (one 0x60) = .next t) ∧ (one 0x60).acc = 0) ∧
    ((∃ t, exec (.jumpn 0) { one 0x70 with acc := 128 } = .next t) ∧
      128 ≤ ({ one 0x70 with acc := 128 } : State).acc.toNat) ∧
    (({ one 0x60 with cfg := { cfg0 with haltInclusive := false }, insta := 1 } : State).cfg.haltInclusive = false ∧
      ∃ t, exec (.jumpz 0) { one 0x60 with cfg := { cfg0 with haltInclusive := false }, insta := 1 } = .next t ∧
        t.halted = true) ∧
    (∃ t, exec (.jumpz 0) { one 0x60 with insta := 2 } = .next t ∧ t.insta.toNat > t.count.toNat) ∧
    IsSpecial (io 1 []).cfg 8 .zero :=
  ⟨⟨rfl, ⟨_, rfl⟩, rfl⟩, ⟨⟨_, rfl⟩, by decide⟩, ⟨rfl, _, rfl, rfl⟩, ⟨_, rfl, by decide⟩, io_kinds.2.2.2.2.1⟩
theorem witness_ArithmeticWrapsModulo256 (r : Nibble) : Readable (io 0x8B [7]) r := fun h => by cases h.2
theorem witness_ShiftsByLowThreeBits (r : Nibble) : Readable (io 0xBB [7]) r := fun h => by cases h.2
theorem witness_LogicIsBitwise (r : Nibble) : Readable (io 0xDB [7]) r := fun h => by cases h.2
theorem witness_ConstantOperandIdioms : IsSpecial (io 1 []).cfg 8 .zero ∧
    IsSpecial (io 1 []).cfg 9 .one ∧ IsSpecial (io 1 []).cfg 10 .min1 :=
  ⟨io_kinds.2.2.2.2.1, io_kinds.2.2.2.2.2.1, io_kinds.2.2.2.2.2.2.1⟩
theorem witness_RegisterReadingInstructionsFrame :
    (∃ t, exec (.add 5) (io 1 [7]) = .next t) ∧ ¬ IsSpecial (io 1 [7]).cfg 13 .inp ∧
    (∃ t, exec (.add 11) (io 1 [7]) = .next t) ∧ IsSpecial (io 1 [7]).cfg 11 .inp ∧
    (∃ t, exec (.add 13) (io 1 [7]) = .next t) ∧ IsInvalid (io 1 [7]).cfg 13 :=
  ⟨⟨_, rfl⟩, fun h => absurd h.2.1 (by decide), ⟨_, rfl⟩, io_kinds.2.2.2.2.2.2.2.1, ⟨_, rfl⟩,
    io_kinds.2.2.2.2.2.2.2.2.2.1⟩
theorem witness_MvarFrame (r : Nibble) : ∃ t, exec (.mvar r) (io 1 []) = .next t := ⟨_, rfl⟩
theorem witness_AccOnlyInstructionsFrame : (∃ t, exec (.mvah 15) (one 0x4F) = .next t) ∧
    (∃ t, exec (.mval 15) (one 0x5F) = .next t) ∧ ∃ t, exec (.lda 15) (one 0x2F) = .next t :=
  ⟨⟨_, rfl⟩, ⟨_, rfl⟩, _, rfl⟩
theorem witness_StaFrame : ∃ t, exec (.sta 15) { one 0x3F with mema := 255 } = .next t := ⟨_, rfl⟩
theorem witness_JumpFrame : (∃ t, exec (.jumpz 15) (one 0x6F) = .next t) ∧
    ∃ t, exec (.jumpn 15) { one 0x7F with acc := 255 } = .next t := ⟨⟨_, rfl⟩, _, rfl⟩
theorem witness_AtMostOneReportPerStep : (∃ t, step (one 0x1A) = .next t ∧ t.log ≠ (one 0x1A).log) ∧
    ∃ t, exec (.lda 13) (one 0x2D) = .next t := ⟨⟨_, rfl, by decide⟩, _, rfl⟩
theorem witness_LogNeverInfluencesAStep : ∃ t, step (one 0x1A) = .next t ∧ t.log ≠ (one 0x1A).log :=
  ⟨_, rfl, by decide⟩
theorem witness_ResetMeetsInvariant : cfgIO.legal := by decide
theorem witness_StepKeepsInvariant : StateInv (one 0x1A) ∧ ∃ t, step (one 0x1A) = .next t :=
  ⟨⟨by decide, rfl, by decide, by decide, by decide, by decide, fun _ => rfl, fun _ => rfl⟩, _, rfl⟩
theorem witness_BootMeetsInvariant : cfgIO.legal ∧ (loadFile cfgIO (some "10001011".toList)).words = [0x8B] :=
  ⟨by decide, by rfl⟩
theorem witness_BoundaryStepIsMvraRegisterZero : StateInv { one 0x8B with pc := 1 } ∧
    ({ one 0x8B with pc := 1 } : State).cfg.haltInclusive = true ∧
    ({ one 0x8B with pc := 1 } : State).count.toNat = 1 :=
  ⟨⟨by decide, rfl, by decide, by decide, by decide, by decide, fun _ => rfl, fun _ => rfl⟩, rfl, rfl⟩
theorem witness_FullProgramNeverHalts : ({ one 0x8B with count := 255 } : State).cfg.haltInclusive = true ∧
    255 ≤ ({ one 0x8B with count := 255 } : State).count.toNat ∧
    ∃ t, Steps { one 0x8B with count := 255 } t ∧ t.pc = 1 :=
  ⟨rfl, by decide, _, .tail (.refl _) rfl, rfl⟩
theorem witness_LoadPlacesWordsFromIndexZero :
    (loadFile cfg0 (some "10001011\n00000000".toList)).words.length = 2 := by rfl
/-- As many stored words as room is left, when there are that many lines of eight bits. -/
theorem words_of_bit_lines (c : Config) (n k : Nat) :
    (loadLines c n k (List.replicate k ['1', '0', '0', '0', '1', '0', '1', '1'])).words.length = k := by
  have h : lineWord c (scanBits 8 ['1', '0', '0', '0', '1', '0', '1', '1']) = some 0x8B := rfl
  induction k generalizing n with
  | zero => rfl
  | succ k ih => simp [List.replicate_succ, loadLines, h, ih]
theorem witness_LoadStopsAt256StoredWords : (loadLines cfg0 1 256
    (List.replicate 256 ['1', '0', '0', '0', '1', '0', '1', '1'])).words.length = 256 :=
  words_of_bit_lines _ _ _
theorem witness_ProgramFileOfWordsLoadsBack : (List.replicate 256 (0x8B : Byte)).length ≤ 256 :=
  List.length_replicate.le
theorem witness_LineIsReadMostSignificantBitFirst : [false, true, false, true, true, false, true, false].length = 8 :=
  rfl
theorem witness_CommentsEndTheLineAndOthersAreSkipped : (∀ ch ∈ ['0', '1'], ch ≠ '\n') ∧
    (' ' ≠ '0' ∧ ' ' ≠ '1' ∧ ' ' ≠ ';') := by simp
theorem witness_StrictLoaderRejectsShortLines : cfg0.loaderStrict = true ∧
    (scanBits 8 "1".toList).length = 1 ∧ (scanBits 8 "1010101".toList).length = 7 ∧
    (scanBits 8 "10101010".toList).length = 8 ∧ (scanBits 8 ";1".toList).length = 0 :=
  ⟨rfl, by rfl, by rfl, by rfl, by rfl⟩
theorem witness_FailedOpenLoadsNothingAndReports : ∀ line ∈ splitLines ['0', '\n', ';', '1', '\n'],
    lineWord cfg0 (scanBits 8 line) = none := by decide
theorem witness_HandoverExactlyAfterHalt : ({ one 0x8B with pc := 2 } : State).halted = true ∧
    (one 0x8B).halted = false := by decide
theorem witness_HandoverIncludesConfiguredInAndOut :
    ({ io 0x0B [] with pc := 2 } : State).halted = true ∧ (io 0x0B []).cfg.hasIn = true ∧
    (io 0x0B []).cfg.hasOut = true ∧ ({ one 0x8B with pc := 2 } : State).halted = true ∧
    (one 0x8B).cfg.hasIn = false ∧ (one 0x8B).cfg.hasOut = false := ⟨rfl, rfl, rfl, rfl, rfl, rfl⟩
theorem witness_WritesAreSeenByTheNextInstruction : IsSpecial (io 1 []).cfg 6 .mema ∧
    IsSpecial (io 1 []).cfg 7 .insta ∧ (io 1 []).acc = 0 ∧
    128 ≤ ({ io 1 [] with acc := 255 } : State).acc.toNat :=
  ⟨io_kinds.2.2.1, io_kinds.2.2.2.1, rfl, by decide⟩

end Sys2Proof.Tests
end

/-! Proofs of the family `00_scope`: the invariant of the machine holds after reset, and every step keeps
it. One lemma says for each state operation when it keeps `StateInv`; the inversion lemmas of
Laws/Operands.lean and Laws/Exec.lean carry that to register accesses, instructions and steps. -/

namespace Sys2Proof.Machine

/-! ### An id resolves to an optional cell only where the configuration has it (R19) -/

theorem hasIn_of_resolve_eq_inp {c : Config} {r : Nibble} (h : resolve c r = .inp) :
    c.hasIn = true := by
  obtain ⟨-, -, hin, -⟩ := resolve_eq_special (q := .inp) |>.mp h
  exact hin rfl

theorem hasOut_of_resolve_eq_out {c : Config} {r : Nibble} (h : resolve c r = .out) :
    c.hasOut = true := by
  obtain ⟨-, -, -, hout⟩ := resolve_eq_special (q := .out) |>.mp h
  exact hout rfl

/-! ### The state operations -/

namespace StateInv

theorem resetFor {c : Config} (hc : c.legal) : StateInv (State.resetFor c) where
  legal := hc
  gprCells := List.length_replicate
  ramWf := Memory.wf_nil
  romWf := Memory.wf_nil
  countMax := Nat.zero_le 256
  romBeyond := List.forall_mem_nil _
  noIn _ := rfl
  noOut _ := rfl

variable {s : State}

theorem setAcc (h : StateInv s) (v : Byte) : StateInv (s.setAcc v) := { h with }

theorem setPc (h : StateInv s) (v : Byte) : StateInv (s.setPc v) := { h with }

theorem setMema (h : StateInv s) (v : Byte) : StateInv (s.setMema v) := { h with }

theorem setInsta (h : StateInv s) (v : Byte) : StateInv (s.setInsta v) := { h with }

theorem emit (h : StateInv s) (r : Report) : StateInv (s.emit r) := { h with }

theorem fetch (h : StateInv s) : StateInv s.fetch := { h with }

theorem setGpr (h : StateInv s) (k : Nat) (v : Byte) : StateInv (s.setGpr k v) :=
  { h with gprCells := List.length_set.trans h.gprCells }

theorem memWrite (h : StateInv s) (a v : Byte) : StateInv (s.memWrite a v) :=
  { h with ramWf := Memory.wf_write h.ramWf a.isLt }

/-- Taking an input value writes `inreg`, so the configuration must have it. -/
theorem takeInput (h : StateInv s) (hin : s.cfg.hasIn = true) (v : Byte) (rest : List Byte) :
    StateInv (s.takeInput v rest) :=
  { h with noIn := fun hno => nomatch hin.symm.trans hno }

/-- Writing `outreg` needs a configuration that has it. -/
theorem setOutreg (h : StateInv s) (hout : s.cfg.hasOut = true) (v : Byte) :
    StateInv (s.setOutreg v) :=
  { h with noOut := fun hno => nomatch hout.symm.trans hno }

theorem jumpIf (h : StateInv s) (taken : Bool) : StateInv (jumpIf taken s) := by
  obtain ⟨-, heq⟩ | ⟨-, heq⟩ := jumpIf_cases taken s <;> rw [heq]
  · exact h.setPc s.insta
  · exact h

/-! ### Register accesses, instructions, steps -/

theorem readReg {t : State} {i : Nibble} {v : Byte} (h : StateInv s)
    (hread : readReg i s = some (v, t)) : StateInv t := by
  obtain rfl | ⟨hslot, rest, -, rfl⟩ | ⟨-, -, rfl⟩ := readReg_cases hread
  · exact h
  · exact h.takeInput (hasIn_of_resolve_eq_inp hslot) v rest
  · exact h.emit _

theorem writeReg (h : StateInv s) (i : Nibble) (v : Byte) : StateInv (writeReg i v s) := by
  obtain ⟨k, -, heq⟩ | ⟨-, heq⟩ | ⟨-, heq⟩ | ⟨-, heq⟩ | ⟨hslot, heq⟩ | ⟨-, heq⟩ :=
    writeReg_cases i v s <;> rw [heq]
  · exact h.setGpr k v
  · exact h.setMema v
  · exact h.setInsta v
  · exact h.emit _
  · exact h.setOutreg (hasOut_of_resolve_eq_out hslot) v
  · exact (h.setGpr 0 v).emit _

theorem exec {t : State} {i : Instr} (h : StateInv s) (hexec : exec i s = .next t) :
    StateInv t := by
  obtain ⟨r, f, v, u, -, hread, rfl⟩ | ⟨r, -, rfl⟩ | ⟨k, -, rfl⟩ | ⟨k, -, rfl⟩ | ⟨x, -, rfl⟩ |
    ⟨x, -, rfl⟩ | ⟨x, -, rfl⟩ | ⟨x, -, rfl⟩ := exec_cases hexec
  · exact (h.readReg hread).setAcc _
  · exact h.writeReg r s.acc
  · exact h.setAcc _
  · exact h.setAcc _
  · exact h.setAcc _
  · exact h.memWrite s.mema s.acc
  · exact h.jumpIf _
  · exact h.jumpIf _

theorem step {t : State} (h : StateInv s) (hstep : step s = .next t) : StateInv t := by
  obtain ⟨-, -, ⟨i, -, hexec⟩ | ⟨opcode, -, rfl⟩⟩ := step_cases hstep
  · exact h.fetch.exec hexec
  · exact h.fetch.emit _

end StateInv

/-- Settles O43: the decoded instruction, run after fetch, keeps the invariant, and so does the report of
an unmapped opcode. -/
theorem stepKeepsInvariant : Obligations.StepKeepsInvariant :=
  fun _ _ h hstep => h.step hstep

/-- Settles O42: reset leaves both memories empty, COUNT and the optional cells 0, and as many register
cells as NGPR says. -/
theorem resetMeetsInvariant : Obligations.ResetMeetsInvariant :=
  ⟨by decide, fun _ hc => StateInv.resetFor hc⟩

end Sys2Proof.Machine

/-! Proofs of the family `10_state`: which instruction writes which part of the state, and which parts an
instruction does not depend on. Three facts carry them: a register access agrees with the tables of
Safety.lean, `exec_effect` says what an instruction may write, and `exec_apply` says which changes of the
state an instruction does not see. -/

namespace Sys2Proof.Machine

/-! ### Register accesses and the tables of R90 and R91 -/

/-- A row of the table of R90 is what `readReg` answers. -/
theorem Reads.readReg_eq {s t : State} {r : Nibble} {v : Byte} (h : Reads s r v t) :
    readReg r s = some (v, t) := by
  cases h with
  | gpr h => simp [readReg, resolve_of_isGpr h]
  | mema h => simp [readReg, resolve_of_isSpecial h, Special.slot]
  | insta h => simp [readReg, resolve_of_isSpecial h, Special.slot]
  | zero h => simp [readReg, resolve_of_isSpecial h, Special.slot]
  | one h => simp [readReg, resolve_of_isSpecial h, Special.slot]
  | min1 h => simp [readReg, resolve_of_isSpecial h, Special.slot]
  | inp _ _ h hin => simp [readReg, resolve_of_isSpecial h, Special.slot, hin, State.takeInput]
  | out h => simp [readReg, resolve_of_isSpecial h, Special.slot]
  | invalid h => simp [readReg, resolve_of_isInvalid h, State.emit]

/-- A row of the table of R91 is what `writeReg` does. -/
theorem Writes.writeReg_eq {s t : State} {r : Nibble} {v : Byte} (h : Writes s r v t) :
    writeReg r v s = t := by
  cases h with
  | gpr h => simp [writeReg, resolve_of_isGpr h, State.setGpr]
  | mema h => simp [writeReg, resolve_of_isSpecial h, Special.slot, State.setMema]
  | insta h => simp [writeReg, resolve_of_isSpecial h, Special.slot, State.setInsta]
  | guarded q hq h =>
    have hrow : writeReg r v s = s.emit (.protectedWrite r) := by
      simp only [List.mem_cons, List.not_mem_nil, or_false] at hq
      obtain rfl | rfl | rfl | rfl := hq <;> simp [writeReg, resolve_of_isSpecial h, Special.slot]
    exact hrow
  | out h => simp [writeReg, resolve_of_isSpecial h, Special.slot, State.setOutreg]
  | invalid h => simp [writeReg, resolve_of_isInvalid h, State.setGpr, State.emit]

theorem exec_mvar_of_writes {s t : State} {r : Nibble} (h : Writes s r s.acc t) :
    exec (.mvar r) s = .next t := congrArg _ h.writeReg_eq

theorem exec_reader_of_reads {i : Instr} {r : Nibble} {f : Byte → Byte → Byte} {s t : State} {v : Byte}
    (hi : readerValue i = some (r, f)) (h : Reads s r v t) :
    exec i s = .next { t with acc := f s.acc v } :=
  (exec_reader hi s).trans (withReg_of_read _ h.readReg_eq)

/-! ### The shifts and the jump tests on bit vectors -/

theorem aluLls_eq_shiftLeft (a v : Byte) : aluLls a v = a <<< (v.toNat % 8) := by
  rw [aluLls_eq]
  apply BitVec.eq_of_toNat_eq
  rw [BitVec.toNat_ofNat, BitVec.toNat_shiftLeft, Nat.shiftLeft_eq]

theorem aluLrs_eq_ushiftRight (a v : Byte) : aluLrs a v = a >>> (v.toNat % 8) := by
  rw [aluLrs_eq]
  apply BitVec.eq_of_toNat_eq
  rw [BitVec.toNat_ofNat, BitVec.toNat_ushiftRight, Nat.shiftRight_eq_div_pow]
  exact Nat.mod_eq_of_lt (Nat.lt_of_le_of_lt (Nat.div_le_self _ _) a.isLt)

theorem accZero_iff {s : State} : s.accZero = true ↔ s.acc = 0 := beq_iff_eq

theorem accNegative_iff {s : State} : s.accNegative = true ↔ 128 ≤ s.acc.toNat := by
  have hmsb : s.accNegative = s.acc.msb := (BitVec.msb_eq_getLsbD_last s.acc).symm
  rw [hmsb, BitVec.msb_eq_decide, decide_eq_true_iff]

theorem exec_jumpz_taken {s : State} (x : Nibble) (h : s.acc = 0) :
    exec (.jumpz x) s = .next { s with pc := s.insta } := by
  have htaken : exec (.jumpz x) s = .next (jumpIf true s) := by rw [← accZero_iff.mpr h]; rfl
  exact htaken

theorem exec_jumpn_taken {s : State} (x : Nibble) (h : 128 ≤ s.acc.toNat) :
    exec (.jumpn x) s = .next { s with pc := s.insta } := by
  have htaken : exec (.jumpn x) s = .next (jumpIf true s) := by rw [← accNegative_iff.mpr h]; rfl
  exact htaken

/-- The results of MVRA and the eight ALU instructions (R100, R130 to R137) on a register read by the
table of R90. -/
theorem exec_readers_of_reads {s t : State} {r : Nibble} {v : Byte} (h : Reads s r v t) :
    exec (.mvra r) s = .next { t with acc := v } ∧
    exec (.add r) s = .next { t with acc := s.acc + v } ∧
    exec (.sub r) s = .next { t with acc := s.acc - v } ∧
    exec (.mul r) s = .next { t with acc := s.acc * v } ∧
    exec (.lls r) s = .next { t with acc := s.acc <<< (v.toNat % 8) } ∧
    exec (.lrs r) s = .next { t with acc := s.acc >>> (v.toNat % 8) } ∧
    exec (.and r) s = .next { t with acc := s.acc &&& v } ∧
    exec (.or r) s = .next { t with acc := s.acc ||| v } ∧
    exec (.xor r) s = .next { t with acc := s.acc ^^^ v } := by
  rw [← aluAdd_eq, ← aluSub_eq, ← aluMul_eq, ← aluLls_eq_shiftLeft, ← aluLrs_eq_ushiftRight]
  refine ⟨exec_reader_of_reads (f := fun _ w => w) rfl h, ?_, ?_, ?_, ?_, ?_, ?_, ?_, ?_⟩ <;>
    exact exec_reader_of_reads rfl h

/-! ### What an instruction may write -/

/-- A completed register read writes at most `inreg`, the input stream and the log, and reports no
protected write. -/
theorem readReg_frame {i : Nibble} {s t : State} {v : Byte} (h : readReg i s = some (v, t)) :
    ∃ n q l, (∀ r, .protectedWrite r ∉ l) ∧
      t = { s with inreg := n, input := q, log := s.log ++ l } := by
  obtain rfl | ⟨-, rest, -, rfl⟩ | ⟨-, -, rfl⟩ := readReg_cases h
  · exact ⟨t.inreg, t.input, [], by simp, by simp⟩
  · exact ⟨v, rest, [], by simp, by simp [State.takeInput]⟩
  · exact ⟨s.inreg, s.input, [.badRegisterId i], by simp, rfl⟩

/-- A register write changes registers and the log only. -/
theorem writeReg_frame (r : Nibble) (v : Byte) (s : State) : ∃ g m j o l,
    writeReg r v s = { s with gpr := g, mema := m, insta := j, outreg := o, log := l } := by
  obtain ⟨k, -, h⟩ | ⟨-, h⟩ | ⟨-, h⟩ | ⟨-, h⟩ | ⟨-, h⟩ | ⟨-, h⟩ := writeReg_cases r v s <;>
    exact ⟨_, _, _, _, _, h⟩

theorem writeReg_mema (r : Nibble) (v : Byte) (s : State) :
    (writeReg r v s).mema = s.mema ∨ IsSpecial s.cfg r .mema := by
  obtain ⟨k, -, h⟩ | ⟨hslot, -⟩ | ⟨-, h⟩ | ⟨-, h⟩ | ⟨-, h⟩ | ⟨-, h⟩ := writeReg_cases r v s
  case inr.inl => exact .inr (resolve_eq_special.mp hslot)
  all_goals rw [h]; exact .inl rfl

theorem writeReg_insta (r : Nibble) (v : Byte) (s : State) :
    (writeReg r v s).insta = s.insta ∨ IsSpecial s.cfg r .insta := by
  obtain ⟨k, -, h⟩ | ⟨-, h⟩ | ⟨hslot, -⟩ | ⟨-, h⟩ | ⟨-, h⟩ | ⟨-, h⟩ := writeReg_cases r v s
  case inr.inr.inl => exact .inr (resolve_eq_special.mp hslot)
  all_goals rw [h]; exact .inl rfl

/-- A register write reports a protected write of its own id only. -/
theorem eq_of_writeReg_protected {r r' : Nibble} {v : Byte} {s : State}
    (h : (writeReg r v s).log = s.log ++ [.protectedWrite r']) : r = r' := by
  obtain ⟨k, -, hw⟩ | ⟨-, hw⟩ | ⟨-, hw⟩ | ⟨-, hw⟩ | ⟨-, hw⟩ | ⟨-, hw⟩ := writeReg_cases r v s
  case inr.inr.inr.inl => simpa [hw] using h
  all_goals simp [hw] at h

/-- The conditional jump `i` is taken in `s` (R120, R121). -/
def TakenJump (s : State) (i : Instr) : Prop :=
  ∃ x, (i = .jumpz x ∧ s.acc = 0) ∨ (i = .jumpn x ∧ 128 ≤ s.acc.toNat)

theorem exec_takenJump {s : State} {i : Instr} (h : TakenJump s i) :
    exec i s = .next { s with pc := s.insta } := by
  obtain ⟨x, ⟨rfl, hacc⟩ | ⟨rfl, hacc⟩⟩ := h
  · exact exec_jumpz_taken x hacc
  · exact exec_jumpn_taken x hacc

/-- What an instruction that answers a next state may write: the readers, MVAH, MVAL, LDA and jumps not
taken write at most ACC and what a register read writes; MVAR writes a register, STA the byte at MEMA, a
taken jump `pc`. -/
theorem exec_effect {i : Instr} {s t : State} (h : exec i s = .next t) :
    (∃ a n q l, (∀ r, .protectedWrite r ∉ l) ∧
      t = { s with acc := a, inreg := n, input := q, log := s.log ++ l }) ∨
    (∃ r, i = .mvar r ∧ t = writeReg r s.acc s) ∨
    (∃ x, i = .sta x ∧ t = s.memWrite s.mema s.acc) ∨
    (TakenJump s i ∧ t = s.setPc s.insta) := by
  have setAcc_effect : ∀ v, ∃ a n q l, (∀ r, .protectedWrite r ∉ l) ∧
      s.setAcc v = { s with acc := a, inreg := n, input := q, log := s.log ++ l } :=
    fun v => ⟨v, s.inreg, s.input, [], by simp, by simp [State.setAcc]⟩
  obtain ⟨r, f, v, u, -, hread, rfl⟩ | ⟨r, hi, ht⟩ | ⟨k, -, rfl⟩ | ⟨k, -, rfl⟩ | ⟨x, -, rfl⟩ |
    ⟨x, hi, ht⟩ | ⟨x, hi, rfl⟩ | ⟨x, hi, rfl⟩ := exec_cases h
  · obtain ⟨n, q, l, hl, rfl⟩ := readReg_frame hread
    exact .inl ⟨_, n, q, l, hl, rfl⟩
  · exact .inr (.inl ⟨r, hi, ht⟩)
  · exact .inl (setAcc_effect _)
  · exact .inl (setAcc_effect _)
  · exact .inl (setAcc_effect _)
  · exact .inr (.inr (.inl ⟨x, hi, ht⟩))
  · obtain ⟨htest, heq⟩ | ⟨-, heq⟩ := jumpIf_cases s.accZero s <;> rw [heq]
    · exact .inr (.inr (.inr ⟨⟨x, .inl ⟨hi, accZero_iff.mp htest⟩⟩, rfl⟩))
    · exact .inl (setAcc_effect s.acc)
  · obtain ⟨htest, heq⟩ | ⟨-, heq⟩ := jumpIf_cases s.accNegative s <;> rw [heq]
    · exact .inr (.inr (.inr ⟨⟨x, .inr ⟨hi, accNegative_iff.mp htest⟩⟩, rfl⟩))
    · exact .inl (setAcc_effect s.acc)

/-! ### Field by field: which instructions write it -/

section
variable {i : Instr} {s t : State}

/-- No instruction writes IR, nor what is fixed before execution. -/
theorem exec_keeps (h : exec i s = .next t) :
    t.ir = s.ir ∧ t.rom = s.rom ∧ t.count = s.count ∧ t.cfg = s.cfg := by
  obtain ⟨a, n, q, l, -, rfl⟩ | ⟨r, -, rfl⟩ | ⟨x, -, rfl⟩ | ⟨-, rfl⟩ := exec_effect h
  case inr.inl =>
    obtain ⟨g, m, j, o, l, hw⟩ := writeReg_frame r s.acc s
    rw [hw]
    exact ⟨rfl, rfl, rfl, rfl⟩
  all_goals exact ⟨rfl, rfl, rfl, rfl⟩

theorem exec_pc (h : exec i s = .next t) : t.pc = s.pc ∨ (t.pc = s.insta ∧ TakenJump s i) := by
  obtain ⟨a, n, q, l, -, rfl⟩ | ⟨r, -, rfl⟩ | ⟨x, -, rfl⟩ | ⟨hjump, rfl⟩ := exec_effect h
  · exact .inl rfl
  · obtain ⟨g, m, j, o, l, hw⟩ := writeReg_frame r s.acc s
    rw [hw]
    exact .inl rfl
  · exact .inl rfl
  · exact .inr ⟨rfl, hjump⟩

theorem exec_gpr (h : exec i s = .next t) : t.gpr = s.gpr ∨ ∃ r, i = .mvar r := by
  obtain ⟨a, n, q, l, -, rfl⟩ | ⟨r, hi, -⟩ | ⟨x, -, rfl⟩ | ⟨-, rfl⟩ := exec_effect h
  · exact .inl rfl
  · exact .inr ⟨r, hi⟩
  · exact .inl rfl
  · exact .inl rfl

theorem exec_mema (h : exec i s = .next t) :
    t.mema = s.mema ∨ ∃ r, i = .mvar r ∧ IsSpecial s.cfg r .mema := by
  obtain ⟨a, n, q, l, -, rfl⟩ | ⟨r, hi, rfl⟩ | ⟨x, -, rfl⟩ | ⟨-, rfl⟩ := exec_effect h
  · exact .inl rfl
  · exact (writeReg_mema r s.acc s).imp_right fun hr => ⟨r, hi, hr⟩
  · exact .inl rfl
  · exact .inl rfl

theorem exec_insta (h : exec i s = .next t) :
    t.insta = s.insta ∨ ∃ r, i = .mvar r ∧ IsSpecial s.cfg r .insta := by
  obtain ⟨a, n, q, l, -, rfl⟩ | ⟨r, hi, rfl⟩ | ⟨x, -, rfl⟩ | ⟨-, rfl⟩ := exec_effect h
  · exact .inl rfl
  · exact (writeReg_insta r s.acc s).imp_right fun hr => ⟨r, hi, hr⟩
  · exact .inl rfl
  · exact .inl rfl

theorem exec_ram (h : exec i s = .next t) :
    t.ram = s.ram ∨ ∃ x, i = .sta x ∧ t = s.memWrite s.mema s.acc := by
  obtain ⟨a, n, q, l, -, rfl⟩ | ⟨r, -, rfl⟩ | hsta | ⟨-, rfl⟩ := exec_effect h
  · exact .inl rfl
  · obtain ⟨g, m, j, o, l, hw⟩ := writeReg_frame r s.acc s
    rw [hw]
    exact .inl rfl
  · exact .inr hsta
  · exact .inl rfl

theorem exec_protected {r : Nibble} (h : exec i s = .next t)
    (hlog : t.log = s.log ++ [.protectedWrite r]) : i = .mvar r := by
  obtain ⟨a, n, q, l, hl, rfl⟩ | ⟨r', hi, rfl⟩ | ⟨x, -, rfl⟩ | ⟨-, rfl⟩ := exec_effect h
  · exact absurd (List.append_cancel_left hlog ▸ List.mem_singleton_self _) (hl r)
  · rw [hi, eq_of_writeReg_protected hlog]
  · simp at hlog
  · simp at hlog

end

/-! ### What every step keeps -/

section
variable {s t : State}

theorem step_keeps (h : step s = .next t) : t.rom = s.rom ∧ t.count = s.count ∧ t.cfg = s.cfg := by
  obtain ⟨-, -, ⟨i, -, hexec⟩ | ⟨opcode, -, rfl⟩⟩ := step_cases h
  · exact (exec_keeps hexec).2
  · exact ⟨rfl, rfl, rfl⟩

theorem step_ir (h : step s = .next t) : t.ir = s.fetchWord := by
  obtain ⟨-, -, ⟨i, -, hexec⟩ | ⟨opcode, -, rfl⟩⟩ := step_cases h
  · exact (exec_keeps hexec).1
  · rfl

theorem step_pc (h : step s = .next t) : t.pc = s.pc + 1 ∨
    (t.pc = s.insta ∧ ∃ i, decode s.cfg.opmap s.fetchWord = .ok i ∧ TakenJump s i) := by
  have hpc : s.fetch.pc = s.pc + 1 := trunc8_succ s.pc
  obtain ⟨-, -, ⟨i, hdecode, hexec⟩ | ⟨opcode, -, rfl⟩⟩ := step_cases h
  · exact (exec_pc hexec).imp (·.trans hpc) fun ⟨htarget, hjump⟩ => ⟨htarget, i, hdecode, hjump⟩
  · exact .inl hpc

/-- A step whose word decodes to `i` answers what `i` does after fetch. -/
theorem exec_of_step {i : Instr} (h : step s = .next t)
    (hdecode : decode s.cfg.opmap s.fetchWord = .ok i) : exec i s.fetch = .next t := by
  obtain ⟨-, -, ⟨j, hj, hexec⟩ | ⟨opcode, hj, -⟩⟩ := step_cases h
  · cases hj.symm.trans hdecode
    exact hexec
  · cases hj.symm.trans hdecode

/-- A step whose word decodes to a jump that is taken leaves `pc` at INSTA. -/
theorem step_takenJump {i : Instr} (h : step s = .next t)
    (hdecode : decode s.cfg.opmap s.fetchWord = .ok i) (hjump : TakenJump s i) : t.pc = s.insta := by
  have hafter : TakenJump s.fetch i := hjump
  cases (exec_of_step h hdecode).symm.trans (exec_takenJump hafter)
  rfl

end

/-! ### Changes of the state that an instruction does not see -/

/-- A change of the fields that hold neither ACC nor a special register: each field by a function of its
own, by default left as it is. -/
structure FieldUpdate where
  ir : Byte → Byte := id
  pc : Byte → Byte := id
  gpr : List Byte → List Byte := id
  ram : Memory → Memory := id
  rom : Memory → Memory := id
  count : BitVec 9 → BitVec 9 := id

namespace FieldUpdate

def apply (u : FieldUpdate) (s : State) : State :=
  { s with
    ir := u.ir s.ir, pc := u.pc s.pc, gpr := u.gpr s.gpr
    ram := u.ram s.ram, rom := u.rom s.rom, count := u.count s.count }

/-- The update leaves what the instruction uses: the general-purpose registers where it has a register
operand, RAM for LDA and STA, `pc` for the jumps. -/
structure UnseenBy (u : FieldUpdate) (i : Instr) : Prop where
  gpr : ∀ r, (∃ f, readerValue i = some (r, f)) ∨ i = .mvar r → ∀ l, u.gpr l = l
  ram : ∀ x, i = .lda x ∨ i = .sta x → ∀ m, u.ram m = m
  pc : ∀ x, i = .jumpz x ∨ i = .jumpn x → ∀ p, u.pc p = p

variable {u : FieldUpdate}

theorem readOut_apply (hgpr : ∀ l, u.gpr l = l) (r : Nibble) (s : State) :
    readOut r (u.apply s) = readOut r s := by
  have hcells : (u.apply s).getGpr = s.getGpr := by
    funext k
    simp [State.getGpr, apply, hgpr]
  unfold readOut
  rw [hcells]
  rfl

theorem writeReg_apply (hgpr : ∀ l, u.gpr l = l) (r : Nibble) (v : Byte) (s : State) :
    writeReg r v (u.apply s) = u.apply (writeReg r v s) := by
  have hcfg : (u.apply s).cfg = s.cfg := rfl
  unfold writeReg
  rw [hcfg]
  cases resolve s.cfg r
  case gpr k => simp [apply, State.setGpr, hgpr]
  case invalid => simp [apply, State.setGpr, State.emit, hgpr]
  all_goals rfl

theorem jumpIf_apply (hpc : ∀ p, u.pc p = p) (b : Bool) (s : State) :
    jumpIf b (u.apply s) = u.apply (jumpIf b s) := by
  cases b
  · rfl
  · simp [jumpIf, apply, State.setPc, State.jumpTarget, hpc]

end FieldUpdate

/-- An instruction carries a change it does not see through to its next state. -/
theorem exec_apply {u : FieldUpdate} {i : Instr} {s t : State} (hu : u.UnseenBy i)
    (h : exec i s = .next t) : exec i (u.apply s) = .next (u.apply t) := by
  obtain ⟨r, f, -, -, hr, -⟩ | ⟨r, rfl, rfl⟩ | ⟨k, rfl, rfl⟩ | ⟨k, rfl, rfl⟩ | ⟨x, rfl, rfl⟩ |
    ⟨x, rfl, rfl⟩ | ⟨x, rfl, rfl⟩ | ⟨x, rfl, rfl⟩ := exec_cases h
  · obtain ⟨p, hp, rfl⟩ := (exec_reader_next hr s t).mp h
    have hgpr := hu.gpr r (.inl ⟨f, hr⟩)
    exact (exec_reader_next hr _ _).mpr ⟨p, (FieldUpdate.readOut_apply hgpr r s).trans hp, rfl⟩
  · exact congrArg _ (FieldUpdate.writeReg_apply (hu.gpr r (.inr rfl)) r s.acc s)
  · rfl
  · rfl
  · have hram : (u.apply s).ram = s.ram := hu.ram x (.inl rfl) s.ram
    have hread : (u.apply s).memRead s.mema = s.memRead s.mema := by
      rw [State.memRead, hram, State.memRead]
    exact congrArg (fun v => Host.Outcome.next ((u.apply s).setAcc v)) hread
  · have hram := hu.ram x (.inr rfl)
    simp [exec, execSta, FieldUpdate.apply, State.memWrite, State.effAddr, hram]
  · exact congrArg _ (FieldUpdate.jumpIf_apply (hu.pc x (.inl rfl)) s.accZero s)
  · exact congrArg _ (FieldUpdate.jumpIf_apply (hu.pc x (.inr rfl)) s.accNegative s)

/-- A jump keeps another `pc` where it is not taken, and overwrites it where it is. -/
theorem jumpIf_setPc (b : Bool) (s : State) (p : Byte) :
    ∃ q, jumpIf b (s.setPc p) = (jumpIf b s).setPc q := by
  cases b
  · exact ⟨p, rfl⟩
  · exact ⟨s.insta, rfl⟩

/-- No instruction reads `pc`: on another one it does the same, but for the `pc` it leaves. -/
theorem exec_setPc {i : Instr} {s t : State} (p : Byte) (h : exec i s = .next t) :
    ∃ q, exec i (s.setPc p) = .next (t.setPc q) := by
  by_cases hjump : ∃ x, i = .jumpz x ∨ i = .jumpn x
  · obtain ⟨x, rfl | rfl⟩ := hjump <;> cases h
    · obtain ⟨q, hq⟩ := jumpIf_setPc s.accZero s p
      exact ⟨q, congrArg _ hq⟩
    · obtain ⟨q, hq⟩ := jumpIf_setPc s.accNegative s p
      exact ⟨q, congrArg _ hq⟩
  · exact ⟨p, exec_apply (u := { pc := fun _ => p })
      ⟨fun _ _ _ => rfl, fun _ _ _ => rfl, fun x hx => absurd ⟨x, hx⟩ hjump⟩ h⟩

/-! ### The namespace of CFG0 -/

theorem resolve_cfg0_guarded : ∀ r : Nibble, 10 ≤ r.toNat → r.toNat ≤ 12 →
    ∃ q ∈ [Special.zero, .one, .min1, .inp], resolve cfg0 r = Special.slot q := by decide

theorem resolve_cfg0_invalid : ∀ r : Nibble, 13 ≤ r.toNat → resolve cfg0 r = .invalid := by decide

/-! ### The statements -/

/-- Settles O11: fetch sets IR and no instruction writes it, so it holds the fetched word after the step;
a change of IR is unseen by every instruction. -/
theorem irHoldsTheFetchedWordAndIsNeverRead : Obligations.IrHoldsTheFetchedWordAndIsNeverRead := by
  refine ⟨fun s t h => step_ir h, fun i s t h => (exec_keeps h).1, fun s w => rfl, fun i s t w h => ?_⟩
  exact exec_apply (u := { ir := fun _ => w })
    ⟨fun _ _ _ => rfl, fun _ _ _ => rfl, fun _ _ _ => rfl⟩ h

/-- Settles O12: after fetch only a taken jump writes PC, and no instruction reads it. -/
theorem pcWrittenOnlyByFetchAndTakenJumps : Obligations.PcWrittenOnlyByFetchAndTakenJumps := by
  refine ⟨fun s => ?_, fun s t h hpc => ?_, fun i s t h hpc => (exec_pc h).resolve_left hpc,
    fun s x => ⟨fun h => ⟨_, exec_jumpz_taken x h, rfl⟩, fun h => ⟨_, exec_jumpn_taken x h, rfl⟩⟩,
    fun s t x h hjump => ?_, fun i s t p h => exec_setPc p h⟩
  · rw [fetch_eq]
    exact ⟨rfl, BitVec.toNat_add s.pc 1⟩
  · obtain ⟨htarget, i, hdecode, x, ⟨rfl, hacc⟩ | ⟨rfl, hacc⟩⟩ := (step_pc h).resolve_left hpc
    · exact ⟨htarget, x, .inl ⟨hdecode, hacc⟩⟩
    · exact ⟨htarget, x, .inr ⟨hdecode, hacc⟩⟩
  · obtain ⟨hdecode, hacc⟩ | ⟨hdecode, hacc⟩ := hjump
    · exact step_takenJump h hdecode ⟨x, .inl ⟨rfl, hacc⟩⟩
    · exact step_takenJump h hdecode ⟨x, .inr ⟨rfl, hacc⟩⟩

/-- Settles O15: each id of CFG0 is a row of the tables of R90 and R91. -/
theorem namespaceOfCfg0 : Obligations.NamespaceOfCfg0 := by
  intro s hcfg
  have hgpr : ∀ r : Nibble, r.toNat ≤ 7 → IsGpr s.cfg r := fun r hr => by
    rw [hcfg]
    exact Nat.lt_succ_of_le hr
  have hspecial : ∀ r q, resolve cfg0 r = Special.slot q → IsSpecial s.cfg r q := fun r q h => by
    rw [hcfg]
    exact resolve_eq_special.mp h
  have hinvalid : ∀ r : Nibble, 13 ≤ r.toNat → IsInvalid s.cfg r := fun r hr => by
    rw [hcfg]
    exact resolve_eq_invalid.mp (resolve_cfg0_invalid r hr)
  have hmema := hspecial 8 .mema (by decide)
  have hinsta := hspecial 9 .insta (by decide)
  refine ⟨fun r hr => ⟨(Reads.gpr (hgpr r hr)).readReg_eq,
      fun v => (Writes.gpr (hgpr r hr)).writeReg_eq⟩,
    (Reads.mema hmema).readReg_eq, (Reads.insta hinsta).readReg_eq,
    (Reads.zero (hspecial 10 .zero (by decide))).readReg_eq,
    (Reads.one (hspecial 11 .one (by decide))).readReg_eq,
    (Reads.min1 (hspecial 12 .min1 (by decide))).readReg_eq,
    fun v => (Writes.mema hmema).writeReg_eq, fun v => (Writes.insta hinsta).writeReg_eq,
    fun r hlow hhigh v => ?_, fun r hr => ?_⟩
  · obtain ⟨q, hq, hslot⟩ := resolve_cfg0_guarded r hlow hhigh
    exact (Writes.guarded q hq (hspecial r q hslot)).writeReg_eq
  · exact ⟨(Reads.invalid (hinvalid r hr)).readReg_eq,
      fun v => (Writes.invalid (hinvalid r hr)).writeReg_eq⟩

/-- Settles O16: the rows of the constants in the tables of R90 and R91; a step keeps the configuration,
and only a register write reports a protected id. -/
theorem constantRegistersAreWired : Obligations.ConstantRegistersAreWired := by
  refine ⟨fun s r => ⟨fun h => (Reads.zero h).readReg_eq, fun h => (Reads.one h).readReg_eq,
    fun h => (Reads.min1 h).readReg_eq⟩, fun s r q hq h => ?_, fun s t r q hstep h => ?_,
    fun i s t r h hlog => exec_protected h hlog⟩
  · have hguarded : q ∈ [Special.zero, .one, .min1, .inp] := List.mem_append_left [Special.inp] hq
    exact exec_mvar_of_writes (.guarded q hguarded h)
  · obtain ⟨-, -, hcfg⟩ := step_keeps hstep
    rwa [hcfg]

/-- Settles O17: a change of the general-purpose registers is unseen by an instruction without a register
operand. -/
theorem gprWrittenOnlyByMvar : Obligations.GprWrittenOnlyByMvar := by
  refine ⟨fun i s t h hgpr => (exec_gpr h).resolve_left hgpr, fun i s t x g hi h => ?_⟩
  have hoperand : ∀ r, ¬ ((∃ f, readerValue i = some (r, f)) ∨ i = .mvar r) := by
    simp only [List.mem_cons, List.not_mem_nil, or_false] at hi
    obtain rfl | rfl | rfl | rfl | rfl | rfl := hi <;> simp [readerValue]
  exact exec_apply (u := { gpr := fun _ => g })
    ⟨fun r hr => absurd hr (hoperand r), fun _ _ _ => rfl, fun _ _ _ => rfl⟩ h

/-- Settles O18: the row of MEMA in the tables of R90 and R91 gives its writer and its readers. -/
theorem memaWrittenOnlyThroughItsId : Obligations.MemaWrittenOnlyThroughItsId :=
  ⟨fun _ _ _ h hmema => (exec_mema h).resolve_left hmema,
    fun _ _ h => ⟨exec_mvar_of_writes (.mema h), (Reads.mema h).readReg_eq,
      exec_readers_of_reads (.mema h)⟩,
    fun _ _ => ⟨rfl, rfl⟩⟩

/-- Settles O19: the row of INSTA in the tables of R90 and R91 gives its writer and its readers. -/
theorem instaWrittenOnlyThroughItsId : Obligations.InstaWrittenOnlyThroughItsId :=
  ⟨fun _ _ _ h hinsta => (exec_insta h).resolve_left hinsta,
    fun _ _ h => ⟨exec_mvar_of_writes (.insta h), exec_readers_of_reads (.insta h)⟩,
    fun _ x => ⟨exec_jumpz_taken x, exec_jumpn_taken x⟩⟩

/-- Settles O26: STA writes the byte at MEMA and no other; a change of RAM is unseen by every instruction
but LDA and STA. -/
theorem ramTouchedOnlyByLdaAndStaAtMema : Obligations.RamTouchedOnlyByLdaAndStaAtMema := by
  refine ⟨fun i s t a h hbyte => ?_, fun s x => ⟨_, rfl, rfl⟩,
    fun s x => ⟨_, rfl, (s.memRead_memWrite _ _ _).trans (if_pos rfl)⟩, fun i s t m h hi => ?_⟩
  · obtain hram | ⟨x, hi, rfl⟩ := exec_ram h
    · exact absurd (congrArg (Memory.read · a.toNat) hram) hbyte
    · rw [State.memRead_memWrite] at hbyte
      exact ⟨by_contra fun ha => hbyte (if_neg ha), x, hi⟩
  · exact exec_apply (u := { ram := fun _ => m })
      ⟨fun _ _ _ => rfl, fun x hx => absurd hx (not_or.mpr (hi x)), fun _ _ _ => rfl⟩ h

/-- Settles O28: no instruction writes ROM, COUNT or the configuration, and a change of ROM and COUNT is
unseen by every instruction. -/
theorem loadTimeStateIsConstant : Obligations.LoadTimeStateIsConstant :=
  ⟨fun _ _ h => step_keeps h, fun _ _ _ m n h => exec_apply
    (u := { rom := fun _ => m, count := fun _ => n }) ⟨fun _ _ _ => rfl, fun _ _ _ => rfl, fun _ _ _ => rfl⟩ h⟩

/-- Settles O47: reset sets PC to 0 and a load leaves it; COUNT 0 in the inclusive form is not below it. -/
theorem resetStartsAtRomIndexZero : Obligations.ResetStartsAtRomIndexZero :=
  ⟨rfl, by decide, fun _ _ => ⟨rfl, rfl, rfl⟩⟩

/-- Settles O48: the registers are NGPR zeros, and an empty RAM reads as 0 everywhere. -/
theorem resetLeavesOpenStateZero : Obligations.ResetLeavesOpenStateZero := by
  refine fun c => ⟨rfl, rfl, rfl, rfl, rfl, rfl, List.length_replicate, fun k => ?_, fun a => rfl⟩
  exact List.getElem?_getD_replicate_default_eq 0 c.ngpr k

end Sys2Proof.Machine

/-! Proofs of the family `20_memory`: what a store changes, and that a fetch never sees it. RAM reaches a
step through LDA only, so a step on another RAM does the same, but for the ACC and the RAM it leaves. -/

namespace Sys2Proof.Machine

/-! ### What a step does once its word is decoded -/

section
variable {s : State}

/-- A step that runs and whose word decodes does what the instruction does after fetch. -/
theorem step_of_decode_ok {i : Instr} (hrun : s.halted = false) (hready : s.inputReady = true)
    (hdecode : decode s.cfg.opmap s.fetchWord = .ok i) : step s = exec i s.fetch := by
  simp [step, hrun, hready, hdecode]

/-- A step that runs and whose word is rejected reports the opcode after fetch. -/
theorem step_of_decode_error {opcode : Nibble} (hrun : s.halted = false)
    (hready : s.inputReady = true)
    (hdecode : decode s.cfg.opmap s.fetchWord = .error (.invalidOpcode opcode)) :
    step s = .next (s.fetch.emit (.invalidOpcode opcode)) := by
  simp [step, hrun, hready, hdecode, State.rejectWord]

end

/-! ### The same instruction and the same step on another RAM -/

/-- On another RAM an instruction does the same, but for the ACC (LDA) and the RAM it leaves. -/
theorem exec_otherRam {i : Instr} {s t : State} (m : Memory) (h : exec i s = .next t) :
    ∃ a n, exec i { s with ram := m } = .next { t with acc := a, ram := n } := by
  by_cases hi : ∃ x, i = .lda x ∨ i = .sta x
  · obtain ⟨x, rfl | rfl⟩ := hi <;> cases h
    · exact ⟨_, m, rfl⟩
    · exact ⟨s.acc, _, rfl⟩
  · obtain ⟨-, -, -, hother⟩ := ramTouchedOnlyByLdaAndStaAtMema
    exact ⟨t.acc, m, hother i s t m h fun x => not_or.mp fun hx => hi ⟨x, hx⟩⟩

/-- The halt check, the input hold, fetch and decode do not look at RAM, so a step differs on another RAM
only as its instruction does. -/
theorem step_otherRam {s t : State} (m : Memory) (h : step s = .next t) :
    ∃ a n, step { s with ram := m } = .next { t with acc := a, ram := n } := by
  obtain ⟨hrun, hready, hword⟩ := step_cases h
  have hrun' : ({ s with ram := m } : State).halted = false := hrun
  have hready' : ({ s with ram := m } : State).inputReady = true := hready
  obtain ⟨i, hdecode, hexec⟩ | ⟨opcode, hdecode, rfl⟩ := hword
  · obtain ⟨a, n, hother⟩ := exec_otherRam m hexec
    exact ⟨a, n, (step_of_decode_ok hrun' hready' hdecode).trans hother⟩
  · exact ⟨s.acc, m, step_of_decode_error hrun' hready' hdecode⟩

/-! ### The statements -/

/-- Settles O25: only STA writes RAM, and a read of the written address gives the byte written. -/
theorem storeThenLoadReturnsTheByte : Obligations.StoreThenLoadReturnsTheByte := by
  refine ⟨State.memRead_memWrite, fun i s t h hram => ?_, fun s x y w => ⟨_, _, rfl, rfl, ?_⟩⟩
  · obtain ⟨x, hi, -⟩ := (exec_ram h).resolve_left hram
    exact ⟨x, hi⟩
  · have hread : (s.memWrite s.mema s.acc).memRead s.mema = s.acc :=
      (s.memRead_memWrite _ _ _).trans (if_pos rfl)
    exact hread

/-- Settles O27: every step keeps ROM, and on another RAM it differs in ACC and RAM only. -/
theorem storesNeverReachFetch : Obligations.StoresNeverReachFetch := by
  refine ⟨fun s t h => (step_keeps h).1, fun s t m h => ?_⟩
  obtain ⟨a, n, hother⟩ := step_otherRam m h
  exact ⟨_, hother, rfl, rfl, rfl⟩

end Sys2Proof.Machine

/-! Proofs of the family `30_encoding`: the word and its instruction give each other back, and the words
of a program file come back from a load. A bijective OPMAP reaches every opcode and every mnemonic because
it has sixteen rows, as CFG0's has, which names them all. -/

namespace Sys2Proof

/-! ### The rows of OPMAP -/

/-- A list without repetitions holds every element of its type, where a list no longer than it does. -/
theorem mem_of_nodup_of_length_le {α : Type} {l all : List α} (hl : l.Nodup) (hall : ∀ a, a ∈ all)
    (hlen : all.length ≤ l.length) (a : α) : a ∈ l :=
  have hperm : l.Perm all := (List.subperm_of_subset hl fun b _ => hall b).perm_of_length_le hlen
  hperm.mem_iff.mpr (hall a)

theorem mem_opcodes_cfg0 : ∀ opcode : Nibble, opcode ∈ cfg0.opmap.map Prod.fst := by decide

namespace Config.opmapLegal

variable {c : Config}

theorem toPartial (h : c.opmapLegal) : c.opmapPartial := by
  obtain ⟨-, hopcodes, -, -⟩ := h
  exact hopcodes

theorem wf (h : c.opmapLegal) (i : Instr) : i.wf c := by
  obtain ⟨hlen, -, hmnemonics, -⟩ := h
  exact mem_of_nodup_of_length_le hmnemonics wf_cfg0 (by simp [hlen, cfg0, opmap0]) i.mnemonic

theorem exists_row (h : c.opmapLegal) (opcode : Nibble) : ∃ m, (opcode, m) ∈ c.opmap := by
  obtain ⟨hlen, hopcodes, -, -⟩ := h
  have hmem : opcode ∈ c.opmap.map Prod.fst :=
    mem_of_nodup_of_length_le hopcodes mem_opcodes_cfg0 (by simp [hlen, cfg0, opmap0]) opcode
  simpa using hmem

end Config.opmapLegal

/-- In a map that gives no mnemonic two rows, a row's opcode is the one its mnemonic finds. -/
theorem opcodeFor_of_mem {opmap : List (Nibble × Mnemonic)} {m : Mnemonic} {opcode : Nibble}
    (hn : (opmap.map Prod.snd).Nodup) (h : (opcode, m) ∈ opmap) : opcodeFor m opmap = some opcode := by
  obtain ⟨o, ho⟩ := opcodeFor_isSome (List.mem_map_of_mem (f := Prod.snd) h)
  have hrow : (o, m) = (opcode, m) := List.inj_on_of_nodup_map hn (opcodeFor_mem ho) h rfl
  cases hrow
  exact ho

/-! ### The decoder and the encoder -/

@[simp] theorem Instr.withOperand_fields (i : Instr) : i.mnemonic.withOperand i.operand = i := by
  cases i <;> rfl

theorem decode_of_opmapAt {opmap : List (Nibble × Mnemonic)} {w : Byte} {m : Mnemonic}
    (h : opmapAt opmap (opcodeOf w) = some m) : decode opmap w = .ok (m.withOperand (operandOf w)) := by
  simp [decode, h]

theorem decode_of_unmapped {opmap : List (Nibble × Mnemonic)} {w : Byte}
    (h : opmapAt opmap (opcodeOf w) = none) : decode opmap w = .error (.invalidOpcode (opcodeOf w)) := by
  simp [decode, h]

theorem encode_of_opcodeFor {opmap : List (Nibble × Mnemonic)} {i : Instr} {opcode : Nibble}
    (h : opcodeFor i.mnemonic opmap = some opcode) : encode opmap i = some (joinWord opcode i.operand) := by
  simp [encode, h]

/-- Settles O3: the opcode found for the mnemonic is a row of the map, and the only one of its opcode. -/
theorem partialMapEncodingDecodesBack : Obligations.PartialMapEncodingDecodesBack := by
  intro c hpartial i hwf
  obtain ⟨opcode, hopcode⟩ := opcodeFor_isSome hwf
  have hrow : opmapAt c.opmap (opcodeOf (joinWord opcode i.operand)) = some i.mnemonic := by
    rw [opcodeOf_joinWord]
    exact opmapAt_of_mem hpartial (opcodeFor_mem hopcode)
  exact ⟨_, encode_of_opcodeFor hopcode, by simpa using decode_of_opmapAt hrow⟩

/-- Settles O1: a bijective OPMAP is a partial one in which every instruction has an opcode. -/
theorem encodedInstructionDecodesToItself : Obligations.EncodedInstructionDecodesToItself :=
  fun c hlegal i => partialMapEncodingDecodesBack c hlegal.toPartial i (hlegal.wf i)

/-- Settles O2: the word's opcode has a row, and the row's mnemonic has no other opcode. -/
theorem everyWordDecodesAndEncodesBack : Obligations.EveryWordDecodesAndEncodesBack := by
  intro c hlegal w
  obtain ⟨m, hrow⟩ := hlegal.exists_row (opcodeOf w)
  have hopcode : opcodeFor (m.withOperand (operandOf w)).mnemonic c.opmap = some (opcodeOf w) := by
    obtain ⟨-, -, hmnemonics, -⟩ := hlegal
    rw [Mnemonic.mnemonic_withOperand]
    exact opcodeFor_of_mem hmnemonics hrow
  exact ⟨_, decode_of_opmapAt (opmapAt_of_mem hlegal.toPartial hrow), hlegal.wf _,
    by simpa using encode_of_opcodeFor hopcode⟩

/-- Settles O4: each word is the opcode of its mnemonic's row and the operand, joined. -/
theorem wordsOfEveryFamilyDecode : Obligations.WordsOfEveryFamilyDecode :=
  ⟨rfl, rfl, rfl, rfl, rfl, rfl, rfl, rfl, rfl, rfl, rfl, rfl⟩

/-! ### The fields of a word as numbers -/

theorem opcodeOf_toNat (w : Byte) : (opcodeOf w).toNat = w.toNat / 16 := by
  have hw := w.isLt
  rw [opcodeOf, BitVec.extractLsb'_toNat, Nat.shiftRight_eq_div_pow]
  omega

theorem operandOf_toNat (w : Byte) : (operandOf w).toNat = w.toNat % 16 := by
  rw [operandOf, BitVec.extractLsb'_toNat, Nat.shiftRight_zero]

theorem joinWord_eq_ofNat (opcode operand : Nibble) :
    joinWord opcode operand = BitVec.ofNat 8 (opcode.toNat * 16 + operand.toNat) := by
  apply BitVec.eq_of_toNat_eq
  have hopcode := opcode.isLt
  have hoperand := operand.isLt
  rw [joinWord, BitVec.toNat_append, BitVec.toNat_ofNat, ← Nat.shiftLeft_add_eq_or_of_lt hoperand,
    Nat.shiftLeft_eq]
  omega

end Sys2Proof

namespace Sys2Proof.Machine

/-! ### The reports of instructions -/

/-- The log `l'` is `l`, or `l` with one report of a register access (R153, R155). -/
def AtMostAccessReport (l l' : List Report) : Prop :=
  l' = l ∨ ∃ r, l' = l ++ [.badRegisterId r] ∨ l' = l ++ [.protectedWrite r]

theorem AtMostAccessReport.ne_append_invalidOpcode {l l' : List Report} (h : AtMostAccessReport l l')
    (opcode : Nibble) : l' ≠ l ++ [.invalidOpcode opcode] := by
  obtain rfl | ⟨r, rfl | rfl⟩ := h <;> simp

theorem readReg_log {i : Nibble} {s t : State} {v : Byte} (h : readReg i s = some (v, t)) :
    AtMostAccessReport s.log t.log := by
  obtain rfl | ⟨-, rest, -, rfl⟩ | ⟨-, -, rfl⟩ := readReg_cases h
  · exact .inl rfl
  · exact .inl rfl
  · exact .inr ⟨i, .inl rfl⟩

theorem writeReg_log (i : Nibble) (v : Byte) (s : State) :
    AtMostAccessReport s.log (writeReg i v s).log := by
  obtain ⟨k, -, h⟩ | ⟨-, h⟩ | ⟨-, h⟩ | ⟨-, h⟩ | ⟨-, h⟩ | ⟨-, h⟩ := writeReg_cases i v s <;> rw [h]
  case inr.inr.inr.inl => exact .inr ⟨i, .inr rfl⟩
  case inr.inr.inr.inr.inr => exact .inr ⟨i, .inl rfl⟩
  all_goals exact .inl rfl

theorem jumpIf_log (b : Bool) (s : State) : (jumpIf b s).log = s.log := by cases b <;> rfl

/-- Only the register accesses of an instruction report. -/
theorem exec_log {i : Instr} {s t : State} (h : exec i s = .next t) :
    AtMostAccessReport s.log t.log := by
  obtain ⟨r, f, v, u, -, hread, rfl⟩ | ⟨r, -, rfl⟩ | ⟨k, -, rfl⟩ | ⟨k, -, rfl⟩ | ⟨x, -, rfl⟩ |
    ⟨x, -, rfl⟩ | ⟨x, -, rfl⟩ | ⟨x, -, rfl⟩ := exec_cases h
  · have hlog : AtMostAccessReport s.log u.log := readReg_log hread
    exact hlog
  · exact writeReg_log r s.acc s
  · exact .inl rfl
  · exact .inl rfl
  · exact .inl rfl
  · exact .inl rfl
  · exact .inl (jumpIf_log _ s)
  · exact .inl (jumpIf_log _ s)

/-- A word that is no instruction reads no operand, so the machine does not hold for it. -/
theorem inputReady_of_decode_error {s : State} {e : DecodeReject}
    (h : decode s.cfg.opmap s.fetchWord = .error e) : s.inputReady = true := by
  simp [State.inputReady, h]

/-- Settles O6: the rejected word is reported after fetch; a bijective OPMAP rejects none, and an
instruction reports register accesses only. -/
theorem unmappedOpcodeReportsAndContinues : Obligations.UnmappedOpcodeReportsAndContinues := by
  refine ⟨fun s hrun hunmapped => ?_, fun s t opcode hlegal hstep hlog => ?_⟩
  · have hreject : decode s.cfg.opmap s.fetchWord = .error (.invalidOpcode (opcodeOf s.fetchWord)) :=
      decode_of_unmapped hunmapped
    rw [step_of_decode_error hrun (inputReady_of_decode_error hreject) hreject, fetch_eq]
    rfl
  · obtain ⟨-, -, ⟨i, -, hexec⟩ | ⟨o, hreject, -⟩⟩ := step_cases hstep
    · exact (exec_log hexec).ne_append_invalidOpcode opcode hlog
    · obtain ⟨i, hdecode, -⟩ := everyWordDecodesAndEncodesBack s.cfg hlegal s.fetchWord
      cases hdecode.symm.trans hreject

/-! ### Literal moves and unused operands -/

/-- Settles O22: the new ACC is the literal joined with the nibble that is kept. -/
theorem literalMovesSetOneNibble : Obligations.LiteralMovesSetOneNibble := by
  intro s k
  rw [← operandOf_toNat, ← opcodeOf_toNat, ← joinWord_eq_ofNat, ← joinWord_eq_ofNat,
    ← setHighNibble_eq, ← setLowNibble_eq]
  exact ⟨rfl, rfl⟩

/-- Settles O30: the meanings of the four instructions do not mention their operand field. -/
theorem unusedOperandIsIgnored : Obligations.UnusedOperandIsIgnored :=
  fun _ _ _ => ⟨rfl, rfl, rfl, rfl⟩

/-! ### The ALU on the constants ONE and MIN1, as numbers -/

section
variable (a : Byte)

theorem add_one_eq_ofNat : a + 1 = BitVec.ofNat 8 (a.toNat + 1) := by bv_omega

theorem sub_one_eq_ofNat : a - 1 = BitVec.ofNat 8 (a.toNat + 255) := by bv_omega

theorem shiftLeft_one_eq_ofNat : a <<< 1 = BitVec.ofNat 8 (2 * a.toNat) := by
  rw [Nat.mul_comm]
  exact (aluLls_eq_shiftLeft a 1).symm.trans (aluLls_eq a 1)

theorem ushiftRight_one_eq_ofNat : a >>> 1 = BitVec.ofNat 8 (a.toNat / 2) :=
  (aluLrs_eq_ushiftRight a 1).symm.trans (aluLrs_eq a 1)

theorem and_one_eq_ofNat : a &&& 1 = BitVec.ofNat 8 (a.toNat % 2) := by
  revert a; decide

theorem or_one_eq_ofNat : a ||| 1 = BitVec.ofNat 8 (a.toNat / 2 * 2 + 1) := by
  revert a; decide

theorem xor_one_eq_ofNat : a ^^^ 1 = BitVec.ofNat 8 (a.toNat / 2 * 2 + (1 - a.toNat % 2)) := by
  revert a; decide

theorem add_min1_eq_ofNat : a + 255 = BitVec.ofNat 8 (a.toNat + 255) := by bv_omega

theorem sub_min1_eq_ofNat : a - 255 = BitVec.ofNat 8 (a.toNat + 1) := by bv_omega

theorem mul_min1_eq_ofNat : a * 255 = BitVec.ofNat 8 (256 - a.toNat) := by
  have hneg : a * 255 = -a := mul_neg_one a
  rw [hneg]
  bv_omega

theorem shiftLeft_seven_eq_ofNat : a <<< 7 = BitVec.ofNat 8 (128 * (a.toNat % 2)) := by
  have hshift : a <<< 7 = BitVec.ofNat 8 (a.toNat * 128) :=
    (aluLls_eq_shiftLeft a 255).symm.trans (aluLls_eq a 255)
  rw [hshift]
  bv_omega

theorem ushiftRight_seven_eq_ofNat : a >>> 7 = BitVec.ofNat 8 (a.toNat / 128) :=
  (aluLrs_eq_ushiftRight a 255).symm.trans (aluLrs_eq a 255)

theorem xor_min1_eq_ofNat : a ^^^ 255 = BitVec.ofNat 8 (255 - a.toNat) := by
  have hnot : a ^^^ 255 = ~~~a := BitVec.xor_allOnes
  rw [hnot]
  bv_omega

end

/-- An outcome that differs from `s` in ACC only, with the new ACC written another way. -/
theorem next_setAcc_congr {o : Host.Outcome State Fault Refusal} {s : State} {v w : Byte}
    (h : o = .next { s with acc := v }) (hv : v = w) : o = .next { s with acc := w } := hv ▸ h

/-- Settles O34: the readers' results on 0, 1 and 255, each written as the number the idiom names. -/
theorem constantOperandIdioms : Obligations.ConstantOperandIdioms := by
  refine ⟨fun s r h => ?_, fun s r h => ?_, fun s r h => ?_⟩
  · obtain ⟨hmvra, hadd, hsub, hmul, hlls, hlrs, hand, hor, hxor⟩ := exec_readers_of_reads (.zero h)
    simp only [List.forall_mem_cons]
    exact ⟨⟨next_setAcc_congr hadd (BitVec.add_zero _), next_setAcc_congr hsub (BitVec.sub_zero _),
        next_setAcc_congr hlls (BitVec.shiftLeft_zero _), next_setAcc_congr hlrs (BitVec.ushiftRight_zero _),
        next_setAcc_congr hor BitVec.or_zero, next_setAcc_congr hxor BitVec.xor_zero,
        List.forall_mem_nil _⟩,
      hmvra, next_setAcc_congr hmul BitVec.mul_zero, next_setAcc_congr hand BitVec.and_zero,
      List.forall_mem_nil _⟩
  · obtain ⟨hmvra, hadd, hsub, hmul, hlls, hlrs, hand, hor, hxor⟩ := exec_readers_of_reads (.one h)
    exact ⟨hmvra, next_setAcc_congr hmul (BitVec.mul_one _),
      next_setAcc_congr hadd (add_one_eq_ofNat _), next_setAcc_congr hsub (sub_one_eq_ofNat _),
      next_setAcc_congr hlls (shiftLeft_one_eq_ofNat _), next_setAcc_congr hlrs (ushiftRight_one_eq_ofNat _),
      next_setAcc_congr hand (and_one_eq_ofNat _), next_setAcc_congr hor (or_one_eq_ofNat _),
      next_setAcc_congr hxor (xor_one_eq_ofNat _)⟩
  · obtain ⟨hmvra, hadd, hsub, hmul, hlls, hlrs, hand, hor, hxor⟩ := exec_readers_of_reads (.min1 h)
    exact ⟨hmvra, next_setAcc_congr hand BitVec.and_allOnes, next_setAcc_congr hor BitVec.or_allOnes,
      next_setAcc_congr hadd (add_min1_eq_ofNat _), next_setAcc_congr hsub (sub_min1_eq_ofNat _),
      next_setAcc_congr hmul (mul_min1_eq_ofNat _), next_setAcc_congr hxor (xor_min1_eq_ofNat _),
      next_setAcc_congr hlls (shiftLeft_seven_eq_ofNat _),
      next_setAcc_congr hlrs (ushiftRight_seven_eq_ofNat _)⟩

/-! ### Program files -/

theorem splitLines_append_newline {line : List Char} (h : '\n' ∉ line) (rest : List Char) :
    splitLines (line ++ '\n' :: rest) = line :: splitLines rest := by
  induction line with
  | nil => simp [splitLines]
  | cons ch line ih =>
    rw [List.mem_cons, not_or] at h
    obtain ⟨hch, hline⟩ := h
    simp [splitLines, Ne.symm hch, ih hline]

/-- A bit as a character of a program file. -/
def charOfBit (b : Bool) : Char := if b then '1' else '0'

/-- The bits of a word, bit 7 first. -/
def wordBits (w : Byte) : List Bool := [7, 6, 5, 4, 3, 2, 1, 0].map w.getLsbD

theorem bitLine_eq_map (w : Byte) : bitLine w = (wordBits w).map charOfBit := rfl

theorem newline_notMem_map_charOfBit (bits : List Bool) : '\n' ∉ bits.map charOfBit := by
  rw [List.mem_map]
  rintro ⟨b, -, hb⟩
  cases b <;> simp [charOfBit] at hb

theorem splitLines_programText (words : List Byte) : splitLines (programText words) = words.map bitLine := by
  induction words with
  | nil => rfl
  | cons w words ih =>
    have htext : programText (w :: words) = bitLine w ++ '\n' :: programText words := by
      simp [programText]
    have hline : '\n' ∉ bitLine w := by
      rw [bitLine_eq_map]
      exact newline_notMem_map_charOfBit _
    rw [htext, splitLines_append_newline hline, ih, List.map_cons]

/-- A scan that finds as many bits as it wants yields them, whatever follows. -/
theorem scanBits_map_charOfBit (bits : List Bool) (rest : List Char) :
    scanBits bits.length (bits.map charOfBit ++ rest) = bits := by
  induction bits with
  | nil => simp [scanBits]
  | cons b bits ih => cases b <;> simp [scanBits, charOfBit, ih]

theorem packBits_concat (bits : List Bool) (b : Bool) :
    packBits (bits ++ [b]) = (packBits bits <<< 1) ||| (if b then 1 else 0) := by
  simp [packBits]

/-- The bit scanned last is bit 0 of the word, and each bit before it stands one place higher. -/
theorem getLsbD_packBits (bits : List Bool) :
    ∀ j < 8, (packBits bits).getLsbD j = bits.reverse.getD j false := by
  induction bits using List.reverseRecOn with
  | nil => simp [packBits]
  | append_singleton bits b ih =>
    intro j hj
    rw [packBits_concat, List.reverse_concat, BitVec.getLsbD_or]
    cases j with
    | zero => cases b <;> simp
    | succ j =>
      have hlast : (if b then (1 : Byte) else 0).getLsbD (j + 1) = false := by cases b <;> simp
      rw [hlast, Bool.or_false, BitVec.getLsbD_shiftLeft, Nat.add_sub_cancel, ih j (by omega)]
      simp [hj]

theorem packBits_wordBits (w : Byte) : packBits (wordBits w) = w := by
  apply BitVec.eq_of_getLsbD_eq
  intro j hj
  rw [getLsbD_packBits _ j hj]
  interval_cases j <;> rfl

theorem scanBits_bitLine (w : Byte) : scanBits 8 (bitLine w) = wordBits w := by
  have hscan := scanBits_map_charOfBit (wordBits w) []
  rwa [List.append_nil, ← bitLine_eq_map] at hscan

theorem lineWord_wordBits (c : Config) (w : Byte) : lineWord c (wordBits w) = some w := by
  have hlen : (wordBits w).length = 8 := rfl
  rw [lineWord, if_pos hlen, packBits_wordBits]

/-- Lines of words are stored one by one while there is room, and none is reported. -/
theorem loadLines_map_bitLine (c : Config) {words : List Byte} {number room : Nat}
    (hroom : words.length ≤ room) : loadLines c number room (words.map bitLine) = ⟨words, []⟩ := by
  induction words generalizing number room with
  | nil => simp [loadLines]
  | cons w words ih =>
    cases room with
    | zero => cases hroom
    | succ room =>
      have hrest := ih (number := number + 1) (Nat.le_of_succ_le_succ hroom)
      simp [loadLines, lineReports, scanBits_bitLine, lineWord_wordBits, hrest]

/-- Settles O53: the file's lines are the words' lines, and each of them is stored as its word. -/
theorem programFileOfWordsLoadsBack : Obligations.ProgramFileOfWordsLoadsBack := by
  intro c words hlen
  rw [loadFile, splitLines_programText]
  exact loadLines_map_bitLine c hlen

end Sys2Proof.Machine

/-! Proofs of the family `40_step_and_register_access`: the outcomes of a step, its halt check and input
hold, and the register accesses against the tables of R90 and R91. `step_outcomes` says which of its three
answers a step gives and when; the tables have a row for every access, so an access that has a row by
`Reads.readReg_eq` or `Writes.writeReg_eq` meets its table exactly. -/

namespace Sys2Proof.Machine

/-! ### Register accesses meet their tables exactly -/

/-- The table of R90 has a row for every read that does not wait. -/
theorem Readable.exists_reads {s : State} {r : Nibble} (h : Readable s r) : ∃ v t, Reads s r v t := by
  obtain hr | ⟨q, hr⟩ | hr := id_cases s.cfg r
  · exact ⟨_, _, .gpr hr⟩
  · cases q with
    | mema => exact ⟨_, _, .mema hr⟩
    | insta => exact ⟨_, _, .insta hr⟩
    | zero => exact ⟨_, _, .zero hr⟩
    | one => exact ⟨_, _, .one hr⟩
    | min1 => exact ⟨_, _, .min1 hr⟩
    | inp =>
      obtain ⟨v, rest, hin⟩ := List.exists_cons_of_ne_nil fun hempty => h ⟨hr, hempty⟩
      exact ⟨_, _, .inp v rest hr hin⟩
    | out => exact ⟨_, _, .out hr⟩
  · exact ⟨_, _, .invalid hr⟩

/-- The table of R91 has a row for every write. -/
theorem exists_writes (s : State) (r : Nibble) (v : Byte) : ∃ t, Writes s r v t := by
  obtain hr | ⟨q, hr⟩ | hr := id_cases s.cfg r
  · exact ⟨_, .gpr hr⟩
  · cases q with
    | mema => exact ⟨_, .mema hr⟩
    | insta => exact ⟨_, .insta hr⟩
    | zero => exact ⟨_, .guarded .zero (by decide) hr⟩
    | one => exact ⟨_, .guarded .one (by decide) hr⟩
    | min1 => exact ⟨_, .guarded .min1 (by decide) hr⟩
    | inp => exact ⟨_, .guarded .inp (by decide) hr⟩
    | out => exact ⟨_, .out hr⟩
  · exact ⟨_, .invalid hr⟩

theorem readReg_eq_some_iff {s t : State} {r : Nibble} {v : Byte} :
    readReg r s = some (v, t) ↔ Reads s r v t := by
  refine ⟨fun h => ?_, Reads.readReg_eq⟩
  have hreadable : Readable s r := readable_iff.mpr (by simp [h])
  obtain ⟨w, u, hrow⟩ := hreadable.exists_reads
  cases h.symm.trans hrow.readReg_eq
  exact hrow

theorem writeReg_eq_iff {s t : State} {r : Nibble} {v : Byte} :
    writeReg r v s = t ↔ Writes s r v t := by
  refine ⟨fun h => ?_, Writes.writeReg_eq⟩
  obtain ⟨u, hrow⟩ := exists_writes s r v
  cases h.symm.trans hrow.writeReg_eq
  exact hrow

/-- Settles O13: every read that does not wait has a row in the table, and `readReg` answers by it. -/
theorem registerReadMeetsTable : Obligations.RegisterReadMeetsTable :=
  ⟨fun _ _ _ _ => readReg_eq_some_iff, fun _ _ => (not_iff_comm.mp readable_iff.symm).symm⟩

/-- Settles O14: every write has a row in the table, and `writeReg` answers by it. -/
theorem registerWriteMeetsTable : Obligations.RegisterWriteMeetsTable :=
  fun _ _ _ _ => writeReg_eq_iff

/-! ### The input hold (R88) -/

theorem starved_iff {s : State} {r : Nibble} :
    s.starved r = true ↔ IsSpecial s.cfg r .inp ∧ s.input = [] := by
  simp [State.starved, ← resolve_eq_special (q := .inp), Special.slot]

/-- The hold, spelled out: the word at `rom[pc]` decodes to a reader of IN, and no input value waits. -/
theorem inputReady_eq_false_iff {s : State} : s.inputReady = false ↔
    ∃ i r, decode s.cfg.opmap s.fetchWord = .ok i ∧ readOperand i = some r ∧
      IsSpecial s.cfg r .inp ∧ s.input = [] := by
  cases hdecode : decode s.cfg.opmap s.fetchWord with
  | error e => simp [State.inputReady, hdecode]
  | ok i => cases hoperand : readOperand i <;> simp [State.inputReady, hdecode, hoperand, starved_iff]

theorem inputReady_of_input_ne_nil {s : State} (h : s.input ≠ []) : s.inputReady = true := by
  refine eq_true_of_ne_false fun hhold => ?_
  obtain ⟨-, -, -, -, -, hempty⟩ := inputReady_eq_false_iff.mp hhold
  exact h hempty

/-- The instructions that read their operand are MVRA and the eight of the ALU (R62, R88). -/
theorem mem_readers_iff {i : Instr} {r : Nibble} :
    i ∈ [.mvra r, .add r, .sub r, .mul r, .lls r, .lrs r, .and r, .or r, .xor r] ↔
      readOperand i = some r := by
  cases i <;> simp [readOperand]

/-! ### The three answers of a step (R80, R85, R88) -/

/-- A machine that is neither halted nor holding completes its step. -/
theorem exists_step_next {s : State} (hrun : s.halted = false) (hready : s.inputReady = true) :
    ∃ t, step s = .next t := by
  cases hdecode : decode s.cfg.opmap s.fetchWord with
  | error e =>
    obtain ⟨opcode⟩ := e
    exact ⟨_, step_of_decode_error hrun hready hdecode⟩
  | ok i =>
    rw [step_of_decode_ok hrun hready hdecode]
    refine exec_stops.resolve_right fun ⟨r, hoperand, hwait, _⟩ => ?_
    obtain ⟨hslot, hempty⟩ := readReg_eq_none.mp hwait
    have hhold : s.inputReady = false := inputReady_eq_false_iff.mpr
      ⟨i, r, hdecode, hoperand, resolve_eq_special.mp hslot, hempty⟩
    exact Bool.false_ne_true (hhold.symm.trans hready)

/-- A step stops in a halted state and in one that holds for input, and completes in every other. -/
theorem step_outcomes (s : State) :
    (s.halted = true ∧ step s = .fault .halted) ∨
    (s.halted = false ∧ s.inputReady = false ∧ step s = .fault .awaitingInput) ∨
    (s.halted = false ∧ s.inputReady = true ∧ ∃ t, step s = .next t) := by
  cases hhalted : s.halted with
  | true => exact .inl ⟨rfl, by simp [step, hhalted]⟩
  | false =>
    cases hready : s.inputReady with
    | false => exact .inr (.inl ⟨rfl, rfl, by simp [step, hhalted, hready]⟩)
    | true => exact .inr (.inr ⟨rfl, rfl, exists_step_next hhalted hready⟩)

theorem step_eq_halted_iff {s : State} : step s = .fault .halted ↔ s.halted = true := by
  obtain ⟨hhalted, h⟩ | ⟨hhalted, -, h⟩ | ⟨hhalted, -, t, h⟩ := step_outcomes s <;> simp [hhalted, h]

theorem step_eq_awaitingInput_iff {s : State} (hrun : s.halted = false) :
    step s = .fault .awaitingInput ↔ s.inputReady = false := by
  obtain ⟨hhalted, -⟩ | ⟨-, hready, h⟩ | ⟨-, hready, t, h⟩ := step_outcomes s
  · exact absurd (hhalted.symm.trans hrun) (by decide)
  · simp [hready, h]
  · simp [hready, h]

/-- Settles O8: of the three answers of a step only that of a halted state is `halted`, and an instruction
stops on an unanswered read of IN only. -/
theorem onlyHaltedStatesStopAsHalted : Obligations.OnlyHaltedStatesStopAsHalted := by
  refine ⟨fun s => step_eq_halted_iff, fun i s h => ?_⟩
  obtain ⟨u, hnext⟩ | ⟨r, -, -, hwait⟩ := exec_stops (i := i) (s := s)
  · cases h.symm.trans hnext
  · cases h.symm.trans hwait

/-- Settles O9: the hold is the negation of `inputReady`, and a waiting input value makes that true. -/
theorem holdsExactlyOnReadOfEmptyInput : Obligations.HoldsExactlyOnReadOfEmptyInput := by
  intro s hrun
  refine ⟨?_, fun v => ?_⟩
  · simp only [mem_readers_iff]
    exact (step_eq_awaitingInput_iff hrun).trans inputReady_eq_false_iff
  · have hinput : (s.supplyInput v).input ≠ [] := List.concat_ne_nil v s.input
    exact exists_step_next hrun (inputReady_of_input_ne_nil hinput)

/-- Settles O5: the instruction runs on the state `fetch_eq` spells out. -/
theorem stepRunsDecodedInstruction : Obligations.StepRunsDecodedInstruction := by
  intro s i hrun hready hdecode
  rw [← fetch_eq]
  exact step_of_decode_ok hrun hready hdecode

/-! ### Reports of a step -/

/-- Settles O40: an instruction adds at most one report, and a rejected word, which runs no instruction,
one of its own. -/
theorem atMostOneReportPerStep : Obligations.AtMostOneReportPerStep := by
  refine ⟨fun s t h => ?_, fun i x s t hi h => ?_⟩
  · obtain ⟨-, -, ⟨i, -, hexec⟩ | ⟨opcode, -, rfl⟩⟩ := step_cases h
    · obtain hsame | ⟨r, hadded | hadded⟩ := exec_log hexec
      · exact .inl hsame
      · exact .inr ⟨_, hadded⟩
      · exact .inr ⟨_, hadded⟩
    · exact .inr ⟨_, rfl⟩
  · simp only [List.mem_cons, List.not_mem_nil, or_false] at hi
    obtain rfl | rfl | rfl | rfl | rfl | rfl := hi <;> cases h
    · rfl
    · rfl
    · exact jumpIf_log _ s
    · exact jumpIf_log _ s
    · rfl
    · rfl

/-! ### The halting condition on numbers (R81) -/

theorem zext9_toNat (p : Byte) : (zext9 p).toNat = p.toNat :=
  BitVec.toNat_setWidth_of_le (by decide)

theorem halted_inclusive_iff {s : State} (h : s.cfg.haltInclusive = true) :
    s.halted = true ↔ s.count.toNat < s.pc.toNat := by
  simp [State.halted, h, BitVec.lt_def, zext9_toNat]

theorem halted_exclusive_iff {s : State} (h : s.cfg.haltInclusive = false) :
    s.halted = true ↔ s.count.toNat ≤ s.pc.toNat := by
  simp [State.halted, h, BitVec.le_def, zext9_toNat]

/-- Settles O7: zero extension keeps the number, so the 9-bit comparison is one of numbers. -/
theorem haltedComparesPcWithCount : Obligations.HaltedComparesPcWithCount :=
  fun _ => ⟨halted_inclusive_iff, halted_exclusive_iff⟩

/-- No step of a run writes ROM, COUNT or the configuration (R27). -/
theorem Steps.keeps {s t : State} (h : Steps s t) :
    t.rom = s.rom ∧ t.count = s.count ∧ t.cfg = s.cfg := by
  induction h with
  | refl => exact ⟨rfl, rfl, rfl⟩
  | tail _ hstep ih =>
    obtain ⟨hrom, hcount, hcfg⟩ := ih
    obtain ⟨hrom', hcount', hcfg'⟩ := step_keeps hstep
    exact ⟨hrom'.trans hrom, hcount'.trans hcount, hcfg'.trans hcfg⟩

/-- Settles O46: a run keeps COUNT and the form of the halting condition, and no `pc` exceeds 255. -/
theorem fullProgramNeverHalts : Obligations.FullProgramNeverHalts := by
  intro s t hform hcount hrun
  obtain ⟨-, hcount', hcfg⟩ := hrun.keeps
  have hform' : t.cfg.haltInclusive = true := hcfg ▸ hform
  rw [← Bool.not_eq_true, halted_inclusive_iff hform', hcount']
  have hpc : t.pc.toNat < 256 := t.pc.isLt
  omega

/-! ### The boundary step (R87) -/

theorem Memory.read_of_forall_lt {m : Memory} {n a : Nat} (h : ∀ c ∈ m, c.1 < n) (ha : n ≤ a) :
    Memory.read m a = 0 := by
  induction m with
  | nil => rfl
  | cons c m ih =>
    obtain ⟨hc, hm⟩ := List.forall_mem_cons.mp h
    rw [Memory.read_cons, if_neg (by omega)]
    exact ih hm

/-- The zero word is MVRA R0 in every legal configuration (R65, R68). -/
theorem decode_zero {opmap : List (Nibble × Mnemonic)} (h : opmap.lookup 0 = some .MVRA) :
    decode opmap 0 = .ok (.mvra 0) :=
  decode_of_opmapAt (w := 0) h

/-- A fetch of the zero word is followed by MVRA R0, which cannot wait: id 0 is a general-purpose register. -/
theorem step_of_fetchWord_zero {s : State} (hlegal : s.cfg.legal) (hrun : s.halted = false)
    (hword : s.fetchWord = 0) :
    step s = .next { s with acc := s.getGpr 0, ir := 0, pc := s.pc + 1 } := by
  obtain ⟨⟨hngpr, -⟩, -, -, -, -, hmvra⟩ := hlegal
  have hdecode : decode s.cfg.opmap s.fetchWord = .ok (.mvra 0) := hword ▸ decode_zero hmvra
  have hgpr : IsGpr s.cfg 0 := Nat.lt_of_lt_of_le (by decide) hngpr
  have hready : s.inputReady = true := by
    refine eq_true_of_ne_false fun hhold => ?_
    obtain ⟨i, r, hi, hoperand, hinp, -⟩ := inputReady_eq_false_iff.mp hhold
    cases hdecode.symm.trans hi
    cases hoperand
    exact hgpr.not_isSpecial .inp hinp
  have hread : Reads s.fetch 0 (s.fetch.getGpr 0) s.fetch := .gpr hgpr
  calc step s = exec (.mvra 0) s.fetch := step_of_decode_ok hrun hready hdecode
    _ = .next { s.fetch with acc := s.fetch.getGpr 0 } := (exec_readers_of_reads hread).1
    _ = .next { s with acc := s.getGpr 0, ir := 0, pc := s.pc + 1 } := by rw [fetch_eq, ← hword]; rfl

/-- Settles O45: ROM is zero from COUNT on, so the word at `pc = COUNT` is MVRA R0, and the incremented
`pc` has passed COUNT. -/
theorem boundaryStepIsMvraRegisterZero : Obligations.BoundaryStepIsMvraRegisterZero := by
  intro s hinv hform hboundary hpc
  have hrun : s.halted = false := by
    rw [← Bool.not_eq_true, halted_inclusive_iff hform]
    omega
  have hword : s.fetchWord = 0 := Memory.read_of_forall_lt hinv.romBeyond hboundary.le
  have hstep := step_of_fetchWord_zero hinv.legal hrun hword
  have hpast : s.count.toNat < (s.pc + 1).toNat := by bv_omega
  exact ⟨hstep, .tail (.refl s) hstep, Iff.mpr (halted_inclusive_iff hform) hpast⟩

/-- Settles O49: the reset state of CFG0 stands at the boundary `pc = COUNT = 0`, and its register 0 and
IR hold 0 already. -/
theorem emptyProgramRunsOneBoundaryStep : Obligations.EmptyProgramRunsOneBoundaryStep := by
  obtain ⟨hlegal, hinv⟩ := resetMeetsInvariant
  obtain ⟨hstep, -, hhalted⟩ :=
    boundaryStepIsMvraRegisterZero State.reset (hinv cfg0 hlegal) rfl rfl (by decide)
  exact ⟨_, hstep, rfl, hhalted⟩

/-! ### The hand-over (R186) -/

/-- Settles O58: in a halted state each optional cell is handed over by a test of the configuration. -/
theorem handoverIncludesConfiguredInAndOut : Obligations.HandoverIncludesConfiguredInAndOut := by
  intro s hhalted
  refine ⟨_, if_pos hhalted, fun hin => ?_, fun hin => ?_, fun hout => ?_, fun hout => ?_⟩
  · exact if_pos hin
  · exact if_neg (by simp [hin])
  · exact if_pos hout
  · exact if_neg (by simp [hout])

end Sys2Proof.Machine

/-! Proofs of the family `41_moves`: MVRA and MVAR follow the tables of R90 and R91, and a literal move
joins its literal with the nibble of ACC that it keeps. A row of the table of R91 leaves one state, so what
MVAR does to a kind of register id is read off the row of that kind. -/

namespace Sys2Proof.Machine

/-! ### Completion (R100, R101) -/

theorem exec_mvra_of_reads {s t : State} {r : Nibble} {v : Byte} (h : Reads s r v t) :
    exec (.mvra r) s = .next { t with acc := v } :=
  exec_reader_of_reads (f := fun _ w => w) rfl h

/-- Settles O20: a read that does not wait has a row in the table of R90, and MVRA follows it. -/
theorem mvraCompletes : Obligations.MvraCompletes := by
  intro s r hreadable
  obtain ⟨v, t, hrow⟩ := hreadable.exists_reads
  exact ⟨v, t, hrow, exec_mvra_of_reads hrow⟩

/-- Settles O21: every write has a row in the table of R91, and MVAR follows it. -/
theorem mvarCompletes : Obligations.MvarCompletes := by
  intro s r
  obtain ⟨t, hrow⟩ := exists_writes s r s.acc
  exact ⟨t, hrow, exec_mvar_of_writes hrow⟩

/-! ### The nibbles of ACC (R102, R103) -/

/-- MVAH and then MVAL with the fields of `v` leave `v` in ACC and nothing else changed (R104). -/
theorem exec_mvah_mval_fields (s : State) (v : Byte) : ∃ u,
    exec (.mvah (opcodeOf v)) s = .next u ∧ exec (.mval (operandOf v)) u = .next (s.setAcc v) := by
  have hbyte : setLowNibble (setHighNibble s.acc (opcodeOf v)) (operandOf v) = v := by
    rw [setHighNibble_eq, setLowNibble_eq, opcodeOf_joinWord, joinWord_fields]
  exact ⟨_, rfl, congrArg (fun a => Host.Outcome.next (s.setAcc a)) hbyte⟩

/-- The same in the other order. -/
theorem exec_mval_mvah_fields (s : State) (v : Byte) : ∃ u,
    exec (.mval (operandOf v)) s = .next u ∧ exec (.mvah (opcodeOf v)) u = .next (s.setAcc v) := by
  have hbyte : setHighNibble (setLowNibble s.acc (operandOf v)) (opcodeOf v) = v := by
    rw [setLowNibble_eq, setHighNibble_eq, operandOf_joinWord, joinWord_fields]
  exact ⟨_, rfl, congrArg (fun a => Host.Outcome.next (s.setAcc a)) hbyte⟩

theorem getLsbD_setHighNibble (a : Byte) (k : Nibble) {j : Nat} (hj : j < 4) :
    (setHighNibble a k).getLsbD j = a.getLsbD j := by
  rw [setHighNibble_eq, joinWord, BitVec.getLsbD_append, if_pos hj, operandOf, BitVec.getLsbD_extractLsb']
  simp [hj]

theorem getLsbD_setLowNibble (a : Byte) (k : Nibble) {j : Nat} (hj : 4 ≤ j) :
    (setLowNibble a k).getLsbD j = a.getLsbD j := by
  rw [setLowNibble_eq, joinWord, BitVec.getLsbD_append, if_neg (by omega), opcodeOf,
    BitVec.getLsbD_extractLsb', Nat.add_sub_cancel' hj]
  obtain hlow | hhigh := Nat.lt_or_ge j 8
  · simp [show j - 4 < 4 by omega]
  · simp [BitVec.getLsbD_of_ge a j hhigh]

/-! ### The general-purpose registers -/

theorem State.getGpr_setGpr_self {s : State} {k : Nat} (v : Byte) (hk : k < s.gpr.length) :
    (s.setGpr k v).getGpr k = v := by
  simp [State.getGpr, hk]

theorem State.getGpr_setGpr_of_ne {s : State} {k l : Nat} (v : Byte) (hne : l ≠ k) :
    (s.setGpr k v).getGpr l = s.getGpr l := by
  simp [State.getGpr, List.getElem?_set_ne hne.symm]

/-- Settles O23: the two literal moves join the nibbles of the byte, and a general-purpose register the
machine has reads as what was written to it. -/
theorem nibblePairBuildsEveryByte : Obligations.NibblePairBuildsEveryByte := by
  refine ⟨fun s v => ?_, fun s v => ?_, fun s v r hcells hgpr => ?_⟩
  · obtain ⟨u, hhigh, hlow⟩ := exec_mvah_mval_fields s v
    exact ⟨u, s.setAcc v, hhigh, hlow, rfl⟩
  · obtain ⟨u, hlow, hhigh⟩ := exec_mval_mvah_fields s v
    exact ⟨u, s.setAcc v, hlow, hhigh, rfl⟩
  · obtain ⟨u, hhigh, hlow⟩ := exec_mvah_mval_fields s v
    have hcell : ((s.setAcc v).setGpr r.toNat v).getGpr r.toNat = v :=
      State.getGpr_setGpr_self v (hcells.symm ▸ hgpr)
    exact ⟨u, s.setAcc v, _, _, hhigh, hlow, exec_mvar_of_writes (.gpr hgpr),
      exec_mvra_of_reads (.gpr hgpr), hcell, hcell⟩

/-! ### The frame of MVAR (R101) -/

theorem exec_mvar_eq_next_iff {s t : State} {r : Nibble} :
    exec (.mvar r) s = .next t ↔ Writes s r s.acc t :=
  Iff.trans ⟨Host.Outcome.next.inj, congrArg _⟩ writeReg_eq_iff

namespace Writes

variable {s t u : State} {r : Nibble} {v : Byte}

/-- The table of R91 gives one state. -/
theorem unique (ht : Writes s r v t) (hu : Writes s r v u) : t = u :=
  ht.writeReg_eq.symm.trans hu.writeReg_eq

/-- A row of the table of R91 changes registers and the log only. -/
theorem frame (h : Writes s r v t) : ∃ g m j o l,
    t = { s with gpr := g, mema := m, insta := j, outreg := o, log := l } :=
  h.writeReg_eq ▸ writeReg_frame r v s

theorem gpr_length (h : Writes s r v t) : t.gpr.length = s.gpr.length := by
  cases h with
  | gpr _ => exact List.length_set
  | invalid _ => exact List.length_set
  | mema _ | insta _ | guarded _ _ _ | out _ => rfl

/-- The cell a row writes is the one its id names, or cell 0 for an invalid id. -/
theorem getGpr_of_ne (h : Writes s r v t) {k : Nat} (hnamed : ¬ (IsGpr s.cfg r ∧ k = r.toNat))
    (hsubst : ¬ (IsInvalid s.cfg r ∧ k = 0)) : t.getGpr k = s.getGpr k := by
  cases h with
  | gpr hr => exact State.getGpr_setGpr_of_ne v fun hk => hnamed ⟨hr, hk⟩
  | invalid hr => exact State.getGpr_setGpr_of_ne v fun hk => hsubst ⟨hr, hk⟩
  | mema _ | insta _ | guarded _ _ _ | out _ => rfl

theorem mema_of_not_isSpecial (h : Writes s r v t) (hr : ¬ IsSpecial s.cfg r .mema) : t.mema = s.mema :=
  h.writeReg_eq ▸ (writeReg_mema r v s).resolve_right hr

theorem insta_of_not_isSpecial (h : Writes s r v t) (hr : ¬ IsSpecial s.cfg r .insta) :
    t.insta = s.insta :=
  h.writeReg_eq ▸ (writeReg_insta r v s).resolve_right hr

theorem outreg_of_not_isSpecial (h : Writes s r v t) (hr : ¬ IsSpecial s.cfg r .out) :
    t.outreg = s.outreg := by
  cases h with
  | out hout => exact absurd hout hr
  | gpr _ | mema _ | insta _ | guarded _ _ _ | invalid _ => rfl

theorem log_of_isInvalid (h : Writes s r v t) (hr : IsInvalid s.cfg r) :
    t.log = s.log ++ [.badRegisterId r] := by
  rw [h.unique (.invalid hr)]

theorem log_of_writable (h : Writes s r v t)
    (hr : IsGpr s.cfg r ∨ ∃ q ∈ [Special.mema, .insta, .out], IsSpecial s.cfg r q) :
    t.log = s.log := by
  obtain hgpr | ⟨q, hq, hspecial⟩ := hr
  · rw [h.unique (.gpr hgpr)]
  · simp only [List.mem_cons, List.not_mem_nil, or_false] at hq
    obtain rfl | rfl | rfl := hq
    · rw [h.unique (.mema hspecial)]
    · rw [h.unique (.insta hspecial)]
    · rw [h.unique (.out hspecial)]

end Writes

/-- Settles O36: MVAR is a row of the table of R91, and each kind of id has its own row. -/
theorem mvarFrame : Obligations.MvarFrame := by
  intro r s t h
  have hrow : Writes s r s.acc t := exec_mvar_eq_next_iff.mp h
  have hkept : t.cfg = s.cfg ∧ t.pc = s.pc ∧ t.ir = s.ir ∧ t.acc = s.acc ∧ t.inreg = s.inreg ∧
      t.input = s.input ∧ t.rom = s.rom ∧ t.count = s.count ∧ t.ram = s.ram := by
    obtain ⟨g, m, j, o, l, rfl⟩ := hrow.frame
    exact ⟨rfl, rfl, rfl, rfl, rfl, rfl, rfl, rfl, rfl⟩
  obtain ⟨hcfg, hpc, hir, hacc, hinreg, hinput, hrom, hcount, hram⟩ := hkept
  exact ⟨hcfg, hpc, hir, hacc, hinreg, hinput, hrom, hcount,
    fun a => congrArg (Memory.read · a.toNat) hram, hram, hrow.gpr_length,
    fun k => hrow.getGpr_of_ne, hrow.mema_of_not_isSpecial, hrow.insta_of_not_isSpecial,
    hrow.outreg_of_not_isSpecial, hrow.log_of_isInvalid,
    fun ⟨q, hq, hr⟩ => hrow.unique (.guarded q hq hr), hrow.log_of_writable⟩

/-! ### The frame of MVAH, MVAL and LDA (R102, R103, R110) -/

/-- MVAH, MVAL and LDA write ACC and nothing else. -/
theorem exec_accOnly {i : Instr} {x : Nibble} {s t : State} (hi : i ∈ [.mvah x, .mval x, .lda x])
    (h : exec i s = .next t) : ∃ v, t = s.setAcc v := by
  simp only [List.mem_cons, List.not_mem_nil, or_false] at hi
  obtain rfl | rfl | rfl := hi <;> cases h <;> exact ⟨_, rfl⟩

/-- Settles O37: the three write ACC only, and a literal move keeps the bits of the other nibble. -/
theorem accOnlyInstructionsFrame : Obligations.AccOnlyInstructionsFrame := by
  intro i x s t hi h
  have hhigh : i = .mvah x → ∀ j < 4, t.acc.getLsbD j = s.acc.getLsbD j := by
    rintro rfl j hj
    cases h
    exact getLsbD_setHighNibble s.acc x hj
  have hlow : i = .mval x → ∀ j, 4 ≤ j → t.acc.getLsbD j = s.acc.getLsbD j := by
    rintro rfl j hj
    cases h
    exact getLsbD_setLowNibble s.acc x hj
  obtain ⟨v, rfl⟩ := exec_accOnly hi h
  exact ⟨rfl, rfl, rfl, rfl, rfl, rfl, rfl, rfl, rfl, rfl, rfl, rfl, fun _ => rfl, rfl, hhigh, hlow⟩

end Sys2Proof.Machine

/-! Proofs of the family `42_memory_ops`: LDA reads the byte at MEMA into ACC and STA stores ACC there. The
address of both is `State.effAddr`, and what a store leaves is said once by `State.memRead_memWrite`. -/

namespace Sys2Proof.Machine

/-! ### The effective address and what LDA and STA do with it (R110 to R112) -/

/-- MEMA is the whole address (R112). -/
@[simp] theorem State.effAddr_eq_mema (s : State) : s.effAddr = s.mema := rfl

theorem exec_lda (x : Nibble) (s : State) : exec (.lda x) s = .next (s.setAcc (s.memRead s.effAddr)) :=
  rfl

theorem exec_sta (x : Nibble) (s : State) : exec (.sta x) s = .next (s.memWrite s.effAddr s.acc) := rfl

theorem exec_sta_eq_next_iff {x : Nibble} {s t : State} :
    exec (.sta x) s = .next t ↔ t = s.memWrite s.effAddr s.acc := by
  rw [exec_sta, Host.Outcome.next.injEq, eq_comm]

/-! ### The statements -/

/-- Settles O24: LDA is a read into ACC and STA a write of ACC, both at the effective address, which is
MEMA. -/
theorem loadAndStoreUseMema : Obligations.LoadAndStoreUseMema := by
  intro s x
  constructor
  · rw [exec_lda, State.effAddr_eq_mema]
    rfl
  · rw [exec_sta, State.effAddr_eq_mema]
    rfl

/-- Settles O38: the next state of STA is a memory write, which touches RAM only, and there one byte
only. -/
theorem staFrame : Obligations.StaFrame := by
  intro x s t h
  obtain rfl := exec_sta_eq_next_iff.mp h
  have hram : ∀ a, a = s.effAddr → (s.memWrite s.effAddr s.acc).memRead a = s.acc ∧
      ∀ b, b ≠ a → (s.memWrite s.effAddr s.acc).memRead b = s.memRead b := by
    rintro a rfl
    constructor
    · rw [State.memRead_memWrite, if_pos rfl]
    · intro b hb
      rw [State.memRead_memWrite, if_neg hb]
  exact ⟨rfl, rfl, rfl, rfl, rfl, rfl, rfl, rfl, rfl, rfl, rfl, rfl, rfl, hram⟩

end Sys2Proof.Machine

/-! Proofs of the family `43_jumps`: in every state a conditional jump only replaces `pc`, by INSTA or by
itself, and halting after a taken jump compares INSTA with COUNT. -/

namespace Sys2Proof.Machine

/-! ### What a conditional jump does with `pc` (R120 to R122) -/

theorem jumpIf_eq_setPc (taken : Bool) (s : State) :
    jumpIf taken s = s.setPc (if taken = true then s.insta else s.pc) := by
  obtain ⟨rfl, heq⟩ | ⟨rfl, heq⟩ := jumpIf_cases taken s <;> exact heq

theorem exec_jumpz (x : Nibble) (s : State) :
    exec (.jumpz x) s = .next (s.setPc (if s.acc = 0 then s.insta else s.pc)) := by
  have harm : exec (.jumpz x) s = .next (jumpIf s.accZero s) := rfl
  simp only [harm, jumpIf_eq_setPc, accZero_iff]

theorem exec_jumpn (x : Nibble) (s : State) :
    exec (.jumpn x) s = .next (s.setPc (if 128 ≤ s.acc.toNat then s.insta else s.pc)) := by
  have harm : exec (.jumpn x) s = .next (jumpIf s.accNegative s) := rfl
  simp only [harm, jumpIf_eq_setPc, accNegative_iff]

/-- JUMPZ and JUMPN write `pc` and nothing else. -/
theorem exec_jump_pcOnly {i : Instr} {x : Nibble} {s t : State} (hi : i ∈ [.jumpz x, .jumpn x])
    (h : exec i s = .next t) : ∃ p, t = s.setPc p := by
  simp only [List.mem_cons, List.not_mem_nil, or_false] at hi
  obtain rfl | rfl := hi
  · exact ⟨_, Host.Outcome.next.inj (h.symm.trans (exec_jumpz x s))⟩
  · exact ⟨_, Host.Outcome.next.inj (h.symm.trans (exec_jumpn x s))⟩

/-- A `pc` above COUNT is halted in either form of the halting condition (R81). -/
theorem halted_of_count_lt_pc {s : State} (h : s.count.toNat < s.pc.toNat) : s.halted = true := by
  cases hform : s.cfg.haltInclusive with
  | true => exact (halted_inclusive_iff hform).mpr h
  | false => exact (halted_exclusive_iff hform).mpr h.le

/-- MVRA of the id of ZERO makes the condition of JUMPZ true (R70). -/
theorem exec_mvra_zero {s : State} {r : Nibble} (h : IsSpecial s.cfg r .zero) :
    exec (.mvra r) s = .next (s.setAcc 0) :=
  exec_mvra_of_reads (.zero h)

/-! ### The statements -/

/-- Settles O29: a taken jump leaves `s.setPc s.insta`, whose halting condition is on INSTA. -/
theorem jumpsGoToInstaOrFallThrough : Obligations.JumpsGoToInstaOrFallThrough := by
  refine ⟨fun s x => ⟨exec_jumpz x s, exec_jumpn x s⟩, fun s t x htaken => ?_, fun s r x hzero =>
    ⟨s.setAcc 0, exec_mvra_zero hzero, exec_jumpz_taken x rfl⟩⟩
  obtain rfl : t = s.setPc s.insta := by
    obtain ⟨h, hacc⟩ | ⟨h, hacc⟩ := htaken
    · exact Host.Outcome.next.inj (h.symm.trans (exec_jumpz_taken x hacc))
    · exact Host.Outcome.next.inj (h.symm.trans (exec_jumpn_taken x hacc))
  exact ⟨fun hform => halted_inclusive_iff (s := s.setPc s.insta) hform,
    fun hform => halted_exclusive_iff (s := s.setPc s.insta) hform,
    fun habove => halted_of_count_lt_pc (s := s.setPc s.insta) habove⟩

/-- Settles O39: a jump writes `pc` only. -/
theorem jumpFrame : Obligations.JumpFrame := by
  intro i x s t hi h
  obtain ⟨p, rfl⟩ := exec_jump_pcOnly hi h
  exact ⟨rfl, rfl, rfl, rfl, rfl, rfl, rfl, rfl, rfl, rfl, rfl, rfl, fun _ => rfl, rfl⟩

end Sys2Proof.Machine

/-! Proofs of the family `44_alu`: the results of the eight ALU instructions, as numbers and bit by bit, and
the frame they share with MVRA. A row of the table of R90 gives the value read and the state the read
leaves; `exec_readers_of_reads` gives ACC from the value, and what the rows leave gives the frame. -/

namespace Sys2Proof.Machine

/-! ### Results as numbers modulo 256 and bit by bit (R130 to R140) -/

section
variable (a v : Byte)

theorem add_eq_ofNat_mod : a + v = BitVec.ofNat 8 ((a.toNat + v.toNat) % 256) := by bv_omega

theorem sub_eq_ofNat_mod : a - v = BitVec.ofNat 8 ((a.toNat + 256 - v.toNat) % 256) := by bv_omega

theorem mul_eq_ofNat_mod : a * v = BitVec.ofNat 8 ((a.toNat * v.toNat) % 256) := by
  apply BitVec.eq_of_toNat_eq
  rw [BitVec.toNat_mul, BitVec.toNat_ofNat, Nat.mod_mod]

theorem getLsbD_shiftLeft_of_lt (n : Nat) {j : Nat} (hj : j < 8) :
    (a <<< n).getLsbD j = (decide (n ≤ j) && a.getLsbD (j - n)) := by
  rw [BitVec.getLsbD_shiftLeft, decide_eq_true hj, Bool.true_and, ← decide_not,
    decide_eq_decide.mpr Nat.not_lt]

end

/-- Settles O31: a read that does not wait has a row in the table of R90, and the sum, difference and
product of bytes are those of the numbers, reduced. -/
theorem arithmeticWrapsModulo256 : Obligations.ArithmeticWrapsModulo256 := by
  intro s r hreadable
  obtain ⟨v, t, hrow⟩ := hreadable.exists_reads
  obtain ⟨-, hadd, hsub, hmul, -⟩ := exec_readers_of_reads hrow
  exact ⟨v, t, hrow, next_setAcc_congr hadd (add_eq_ofNat_mod _ _),
    next_setAcc_congr hsub (sub_eq_ofNat_mod _ _), next_setAcc_congr hmul (mul_eq_ofNat_mod _ _)⟩

/-- Settles O32: both shifts are shifts of the byte by the value modulo 8, read bit by bit. -/
theorem shiftsByLowThreeBits : Obligations.ShiftsByLowThreeBits := by
  intro s r hreadable
  obtain ⟨v, t, hrow⟩ := hreadable.exists_reads
  obtain ⟨-, -, -, -, hlls, hlrs, -⟩ := exec_readers_of_reads hrow
  exact ⟨v, t, hrow, ⟨_, hlls, fun _ hj => getLsbD_shiftLeft_of_lt _ _ hj⟩,
    ⟨_, hlrs, fun j _ => by rw [BitVec.getLsbD_ushiftRight, Nat.add_comm]⟩⟩

/-- Settles O33: the three are the bitwise operations on the two bytes. -/
theorem logicIsBitwise : Obligations.LogicIsBitwise := by
  intro s r hreadable
  obtain ⟨v, t, hrow⟩ := hreadable.exists_reads
  obtain ⟨-, -, -, -, -, -, hand, hor, hxor⟩ := exec_readers_of_reads hrow
  exact ⟨v, t, hrow, ⟨_, hand, fun _ _ => BitVec.getLsbD_and⟩, ⟨_, hor, fun _ _ => BitVec.getLsbD_or⟩,
    ⟨_, hxor, fun _ _ => BitVec.getLsbD_xor⟩⟩

/-! ### The frame of the nine readers (R100, R138) -/

namespace Reads

variable {s t : State} {r : Nibble} {v : Byte}

/-- A row of the table of R90 changes `inreg`, the input stream and the log only. -/
theorem frame (h : Reads s r v t) : ∃ n q l, t = { s with inreg := n, input := q, log := l } := by
  obtain ⟨n, q, l, -, rfl⟩ := readReg_frame h.readReg_eq
  exact ⟨n, q, _, rfl⟩

theorem input_of_not_isSpecial (h : Reads s r v t) (hr : ¬ IsSpecial s.cfg r .inp) :
    t.inreg = s.inreg ∧ t.input = s.input := by
  cases h with
  | inp _ _ hinp _ => exact absurd hinp hr
  | gpr _ | mema _ | insta _ | zero _ | one _ | min1 _ | out _ | invalid _ => exact ⟨rfl, rfl⟩

theorem input_of_isSpecial (h : Reads s r v t) (hr : IsSpecial s.cfg r .inp) :
    s.input = t.inreg :: t.input := by
  cases h with
  | inp _ _ _ hin => exact hin
  | gpr hgpr => exact absurd hr (hgpr.not_isSpecial .inp)
  | invalid hinvalid => exact absurd hinvalid hr.not_isInvalid
  | mema hother | insta hother | zero hother | one hother | min1 hother | out hother =>
    cases hr.unique hother

theorem log_of_not_isInvalid (h : Reads s r v t) (hr : ¬ IsInvalid s.cfg r) : t.log = s.log := by
  cases h with
  | invalid hinvalid => exact absurd hinvalid hr
  | gpr _ | mema _ | insta _ | zero _ | one _ | min1 _ | inp _ _ _ _ | out _ => rfl

theorem log_of_isInvalid (h : Reads s r v t) (hr : IsInvalid s.cfg r) :
    t.log = s.log ++ [.badRegisterId r] := by
  cases h with
  | invalid _ => rfl
  | gpr hgpr => exact absurd hr hgpr.not_isInvalid
  | mema hq | insta hq | zero hq | one hq | min1 hq | inp _ _ hq _ | out hq =>
    exact absurd hr hq.not_isInvalid

end Reads

/-- A reader that completes has read its operand by the table of R90 and then written ACC. -/
theorem reads_of_exec_reader {i : Instr} {r : Nibble} {s t : State} (hi : readOperand i = some r)
    (h : exec i s = .next t) : ∃ v u a, Reads s r v u ∧ t = u.setAcc a := by
  rw [readOperand_eq, Option.map_eq_some_iff] at hi
  obtain ⟨⟨_, f⟩, hreader, rfl⟩ := hi
  rw [exec_reader hreader] at h
  obtain ⟨v, u, hread, ht⟩ := withReg_next h
  exact ⟨v, u, _, readReg_eq_some_iff.mp hread, ht⟩

/-- Settles O35: a reader leaves what its row of the table of R90 leaves, with ACC written. -/
theorem registerReadingInstructionsFrame : Obligations.RegisterReadingInstructionsFrame := by
  intro i r s t hi h
  obtain ⟨v, u, a, hrow, rfl⟩ := reads_of_exec_reader (mem_readers_iff.mp hi) h
  have hkept : u.cfg = s.cfg ∧ u.pc = s.pc ∧ u.ir = s.ir ∧ u.gpr = s.gpr ∧ u.mema = s.mema ∧
      u.insta = s.insta ∧ u.outreg = s.outreg ∧ u.rom = s.rom ∧ u.count = s.count ∧
      u.ram = s.ram := by
    obtain ⟨n, q, l, rfl⟩ := hrow.frame
    exact ⟨rfl, rfl, rfl, rfl, rfl, rfl, rfl, rfl, rfl, rfl⟩
  obtain ⟨hcfg, hpc, hir, hgpr, hmema, hinsta, houtreg, hrom, hcount, hram⟩ := hkept
  exact ⟨hcfg, hpc, hir, hgpr, hmema, hinsta, houtreg, hrom, hcount,
    fun b => congrArg (Memory.read · b.toNat) hram, hram, hrow.input_of_not_isSpecial,
    hrow.input_of_isSpecial, hrow.log_of_not_isInvalid, hrow.log_of_isInvalid⟩

end Sys2Proof.Machine

/-! Proofs of the family `60_exceptions`: nothing but a read of IN with no input value keeps an instruction
from completing, and a report changes the log and nothing that an instruction or a step looks at. -/

namespace Sys2Proof.Machine

/-! ### Completion (R88, R158, R159) -/

theorem readable_of_noIn {s : State} (r : Nibble) (h : s.cfg.hasIn = false) : Readable s r := by
  rintro ⟨hinp, -⟩
  have hin : s.cfg.hasIn = true := hasIn_of_resolve_eq_inp (resolve_of_isSpecial hinp)
  exact Bool.false_ne_true (h.symm.trans hin)

/-- An instruction completes, or it is a reader and its operand is an unanswered read of IN. -/
theorem exec_completes_or_waits (i : Instr) (s : State) : (∃ t, exec i s = .next t) ∨
    (exec i s = .fault .awaitingInput ∧ ∃ r, readOperand i = some r ∧ ¬ Readable s r) := by
  refine exec_stops.imp_right fun ⟨r, hoperand, hwait, hstop⟩ => ?_
  exact ⟨hstop, r, hoperand, fun hreadable => readable_iff.mp hreadable hwait⟩

/-- Settles O10: only an unreadable operand stops an instruction, without an input register every operand
is readable, and none of the three answers of a step is a refusal. -/
theorem everyInstructionCompletes : Obligations.EveryInstructionCompletes := by
  refine ⟨fun i s hnoIn => ?_, fun i s => ?_, fun s e h => ?_⟩
  · refine (exec_completes_or_waits i s).resolve_right fun ⟨_, r, _, hwait⟩ => ?_
    exact hwait (readable_of_noIn r hnoIn)
  · simp only [mem_readers_iff]
    exact exec_completes_or_waits i s
  · obtain ⟨-, hstep⟩ | ⟨-, -, hstep⟩ | ⟨-, -, t, hstep⟩ := step_outcomes s <;>
      cases h.symm.trans hstep

/-! ### Reports are not state (R150, D12) -/

/-- `f` takes `s` to `t`, and from `s` with any other log it does the same and adds the same reports. -/
def SameOnAnyLog (f : State → Host.Outcome State Fault Refusal) (s t : State) : Prop :=
  ∃ added, t.log = s.log ++ added ∧ ∀ l, f { s with log := l } = .next { t with log := l ++ added }

theorem SameOnAnyLog.of_silent {f : State → Host.Outcome State Fault Refusal} {s t : State}
    (hlog : t.log = s.log) (h : ∀ l, f { s with log := l } = .next { t with log := l }) :
    SameOnAnyLog f s t :=
  ⟨[], by rw [hlog, List.append_nil], fun l => by rw [h, List.append_nil]⟩

/-- No row of the table of R91 looks at the log. -/
theorem Writes.sameOnAnyLog {s t : State} {r : Nibble} (h : Writes s r s.acc t) :
    SameOnAnyLog (exec (.mvar r)) s t := by
  cases h with
  | gpr hr => exact .of_silent rfl fun _ => exec_mvar_of_writes (.gpr hr)
  | mema hr => exact .of_silent rfl fun _ => exec_mvar_of_writes (.mema hr)
  | insta hr => exact .of_silent rfl fun _ => exec_mvar_of_writes (.insta hr)
  | out hr => exact .of_silent rfl fun _ => exec_mvar_of_writes (.out hr)
  | guarded q hq hr => exact ⟨_, rfl, fun _ => exec_mvar_of_writes (.guarded q hq hr)⟩
  | invalid hr => exact ⟨_, rfl, fun _ => exec_mvar_of_writes (.invalid hr)⟩

/-- A reader sees of the state what `readOut` takes from it, which leaves out the log. -/
theorem exec_reader_sameOnAnyLog {i : Instr} {r : Nibble} {f : Byte → Byte → Byte} {s t : State}
    (hi : readerValue i = some (r, f)) (h : exec i s = .next t) : SameOnAnyLog (exec i) s t := by
  obtain ⟨p, hread, rfl⟩ := (exec_reader_next hi s t).mp h
  exact ⟨p.2.2.2, rfl, fun l => (exec_reader_next hi { s with log := l } _).mpr ⟨p, hread, rfl⟩⟩

theorem jumpIf_otherLog (b : Bool) (s : State) (l : List Report) :
    jumpIf b { s with log := l } = { jumpIf b s with log := l } := by
  cases b <;> rfl

theorem exec_sameOnAnyLog {i : Instr} {s t : State} (h : exec i s = .next t) :
    SameOnAnyLog (exec i) s t := by
  obtain ⟨r, f, -, -, hi, -⟩ | ⟨r, rfl, -⟩ | ⟨k, rfl, rfl⟩ | ⟨k, rfl, rfl⟩ | ⟨x, rfl, rfl⟩ |
    ⟨x, rfl, rfl⟩ | ⟨x, rfl, rfl⟩ | ⟨x, rfl, rfl⟩ := exec_cases h
  · exact exec_reader_sameOnAnyLog hi h
  · exact (exec_mvar_eq_next_iff.mp h).sameOnAnyLog
  · exact .of_silent rfl fun _ => rfl
  · exact .of_silent rfl fun _ => rfl
  · exact .of_silent rfl fun _ => rfl
  · exact .of_silent rfl fun _ => rfl
  · exact .of_silent (jumpIf_log _ s) fun l => congrArg _ (jumpIf_otherLog s.accZero s l)
  · exact .of_silent (jumpIf_log _ s) fun l => congrArg _ (jumpIf_otherLog s.accNegative s l)

/-- The halt check, the input hold, fetch and decode do not look at the log, so a step on another log runs
the same instruction or reports the same opcode. -/
theorem step_sameOnAnyLog {s t : State} (h : step s = .next t) : SameOnAnyLog step s t := by
  obtain ⟨hrun, hready, ⟨i, hdecode, hexec⟩ | ⟨opcode, hdecode, rfl⟩⟩ := step_cases h
  · obtain ⟨added, hlog, hsame⟩ := exec_sameOnAnyLog hexec
    exact ⟨added, hlog, fun l =>
      (step_of_decode_ok (s := { s with log := l }) hrun hready hdecode).trans (hsame l)⟩
  · exact ⟨_, rfl, fun l => step_of_decode_error (s := { s with log := l }) hrun hready hdecode⟩

/-- Settles O41: a step is the same on any log, so on `l`. -/
theorem logNeverInfluencesAStep : Obligations.LogNeverInfluencesAStep := by
  intro s t l h
  obtain ⟨added, hlog, hsame⟩ := step_sameOnAnyLog h
  exact ⟨added, hlog, hsame l⟩

end Sys2Proof.Machine

/-! Proofs of the family `70_reset_and_hazards`: what a scan finds on a line, which words and reports a
load yields, and the state it leaves. A load stores the words that its lines yield while there is room;
the length of that list gives COUNT, the ROM and the invariant. The hand-over and the absence of hazards
follow at the end. -/

namespace Sys2Proof.Machine

/-! ### The scan of a line (R174 to R176) -/

theorem scanBits_comment (n : Nat) (rest : List Char) : scanBits n (';' :: rest) = scanBits n [] := by
  cases n <;> simp [scanBits]

theorem scanBits_skip {ch : Char} (h0 : ch ≠ '0') (h1 : ch ≠ '1') (hc : ch ≠ ';') (n : Nat)
    (rest : List Char) : scanBits n (ch :: rest) = scanBits n rest := by
  cases n <;> simp [scanBits, h0, h1, hc]

/-- Two ends of a line that scan alike do so behind the same beginning. -/
theorem scanBits_append_congr {xs ys : List Char} (h : ∀ n, scanBits n xs = scanBits n ys)
    (before : List Char) (n : Nat) : scanBits n (before ++ xs) = scanBits n (before ++ ys) := by
  induction before generalizing n with
  | nil => exact h n
  | cons ch before ih =>
    cases n with
    | zero => rfl
    | succ n => simp only [List.cons_append, scanBits, ih]

/-- Settles O54: the scan of a comment is that of the line's end, a skipped character scans as what
follows it, and only a line feed ends a line. -/
theorem commentsEndTheLineAndOthersAreSkipped :
    Obligations.CommentsEndTheLineAndOthersAreSkipped := by
  refine ⟨fun n before after => ?_, fun before after hbefore hafter rest => ?_,
    fun n before after ch h0 h1 hc => ?_⟩
  · have hend := scanBits_append_congr (scanBits_comment · after) before n
    rwa [List.append_nil] at hend
  · have hline : '\n' ∉ before ++ ';' :: after := by
      simpa using ⟨fun h => hbefore _ h rfl, fun h => hafter _ h rfl⟩
    exact splitLines_append_newline hline rest
  · exact scanBits_append_congr (scanBits_skip h0 h1 hc · after) before n

/-- Settles O52: the eight bit characters fill the scan, and packing puts the last one at bit 0. -/
theorem lineIsReadMostSignificantBitFirst : Obligations.LineIsReadMostSignificantBitFirst := by
  refine ⟨fun c bits rest hlen => ?_, fun c => rfl⟩
  have hscan : scanBits 8 (bits.map charOfBit ++ rest) = bits :=
    hlen ▸ scanBits_map_charOfBit bits rest
  have hword : lineWord c (scanBits 8 (bits.map charOfBit ++ rest)) = some (packBits bits) := by
    rw [hscan, lineWord, if_pos hlen]
  refine ⟨packBits bits, hword, fun j hj => ?_⟩
  have hrev : 7 - j < bits.reverse.length := by rw [List.length_reverse]; omega
  rw [getLsbD_packBits bits (7 - j) (by omega), List.getD_eq_getElem _ _ hrev, List.getElem_reverse]
  congr 1
  omega

/-! ### Acceptance and reports of a line (R152, R177) -/

theorem lineReports_of_word {c : Config} {bits : List Bool} {w : Byte}
    (h : lineWord c bits = some w) (number : Nat) : lineReports c number bits = [] := by
  simp [lineReports, h]

theorem lineReports_eq_malformedLine {c : Config} {number : Nat} {bits : List Bool} {e : Report}
    (h : e ∈ lineReports c number bits) : e = .malformedLine number := by
  unfold lineReports at h
  split at h
  · exact List.mem_singleton.mp h
  · cases h

section
variable {c : Config} (hstrict : c.loaderStrict = true)
include hstrict

theorem lineWord_strict (bits : List Bool) :
    lineWord c bits = if bits.length = 8 then some (packBits bits) else none := by
  simp [lineWord, hstrict]

theorem lineReports_strict (number : Nat) (bits : List Bool) : lineReports c number bits =
    if bits.length = 0 ∨ bits.length = 8 then [] else [.malformedLine number] := by
  rw [lineReports, lineWord_strict hstrict]
  cases bits <;> simp

end

/-- Settles O55: the strict policy takes 8 bits, reports any other number but 0, and a scan finds no more
than 8. -/
theorem strictLoaderRejectsShortLines : Obligations.StrictLoaderRejectsShortLines := by
  intro c n line hstrict
  have hmax : (scanBits 8 line).length ≤ 8 := scanBits_length 8 line
  rw [lineWord_strict hstrict, lineReports_strict hstrict]
  refine ⟨by rw [Option.isSome_ite], ?_, fun h => if_pos h⟩
  split
  · exact iff_of_false (List.cons_ne_nil _ _).symm (by omega)
  · exact iff_of_true rfl (by omega)

/-! ### The words and reports of a load (R172, R180) -/

theorem loadLines_noRoom (c : Config) (number : Nat) (ls : List (List Char)) :
    loadLines c number 0 ls = ⟨[], []⟩ := by
  cases ls <;> rfl

theorem loadLines_cons_of_word {c : Config} {l : List Char} {w : Byte}
    (h : lineWord c (scanBits 8 l) = some w) (number room : Nat) (ls : List (List Char)) :
    loadLines c number (room + 1) (l :: ls) =
      ⟨w :: (loadLines c (number + 1) room ls).words, (loadLines c (number + 1) room ls).reports⟩ := by
  simp [loadLines, h, lineReports_of_word h]

theorem loadLines_cons_of_rejected {c : Config} {l : List Char}
    (h : lineWord c (scanBits 8 l) = none) (number room : Nat) (ls : List (List Char)) :
    loadLines c number (room + 1) (l :: ls) =
      ⟨(loadLines c (number + 1) (room + 1) ls).words, lineReports c number (scanBits 8 l) ++
        (loadLines c (number + 1) (room + 1) ls).reports⟩ := by
  simp [loadLines, h]

theorem loadLines_words (c : Config) (number room : Nat) (ls : List (List Char)) :
    (loadLines c number room ls).words =
      (ls.filterMap fun l => lineWord c (scanBits 8 l)).take room := by
  induction ls generalizing number room with
  | nil => simp [loadLines]
  | cons l ls ih =>
    cases room with
    | zero => rw [loadLines_noRoom, List.take_zero]
    | succ room =>
      cases h : lineWord c (scanBits 8 l) with
      | none => simp only [loadLines_cons_of_rejected h, List.filterMap_cons, h, ih]
      | some w => simp only [loadLines_cons_of_word h, List.filterMap_cons, h, List.take_succ_cons, ih]

/-- Where the lines fill the room, further lines are not looked at. -/
theorem loadLines_append_of_full {c : Config} {number room : Nat} {ls : List (List Char)}
    (more : List (List Char)) (hfull : (loadLines c number room ls).words.length = room) :
    loadLines c number room (ls ++ more) = loadLines c number room ls := by
  induction ls generalizing number room with
  | nil =>
    obtain rfl : 0 = room := by simpa [loadLines] using hfull
    rw [loadLines_noRoom, loadLines_noRoom]
  | cons l ls ih =>
    cases room with
    | zero => rw [loadLines_noRoom, loadLines_noRoom]
    | succ room =>
      rw [List.cons_append]
      cases h : lineWord c (scanBits 8 l) with
      | none =>
        rw [loadLines_cons_of_rejected h] at hfull
        rw [loadLines_cons_of_rejected h, loadLines_cons_of_rejected h, ih hfull]
      | some w =>
        rw [loadLines_cons_of_word h] at hfull
        rw [loadLines_cons_of_word h, loadLines_cons_of_word h, ih (Nat.succ.inj hfull)]

theorem loadLines_reports_malformedLine {c : Config} {number room : Nat} {ls : List (List Char)}
    {e : Report} (h : e ∈ (loadLines c number room ls).reports) : ∃ n, e = .malformedLine n := by
  induction ls generalizing number room with
  | nil => simp [loadLines] at h
  | cons l ls ih =>
    cases room with
    | zero => simp [loadLines_noRoom] at h
    | succ room =>
      cases hw : lineWord c (scanBits 8 l) with
      | none =>
        rw [loadLines_cons_of_rejected hw] at h
        obtain hline | hrest := List.mem_append.mp h
        · exact ⟨number, lineReports_eq_malformedLine hline⟩
        · exact ih hrest
      | some w =>
        rw [loadLines_cons_of_word hw] at h
        exact ih h

theorem loadFile_words_length_le (c : Config) (file : Option (List Char)) :
    (loadFile c file).words.length ≤ 256 := by
  cases file with
  | none => exact Nat.zero_le 256
  | some text =>
    rw [loadFile, loadLines_words]
    exact List.length_take_le 256 _

/-- Settles O51: a load stores the words its lines yield while there is room, and stops where the room is
used up. -/
theorem loadStopsAt256StoredWords : Obligations.LoadStopsAt256StoredWords :=
  ⟨fun c text => loadLines_words c 1 256 (splitLines text), loadFile_words_length_le,
    fun _ _ _ more hfull => loadLines_append_of_full more hfull⟩

/-! ### The state a load leaves (R179, R181) -/

section
variable (c : Config) (file : Option (List Char))

theorem boot_rom_read (i : Nat) :
    (State.boot c file).rom.read i = (loadFile c file).words.getD i 0 :=
  (romFrom_read 0 _ i).trans (if_pos (Nat.zero_le i))

theorem boot_log : (State.boot c file).log = (loadFile c file).reports := List.nil_append _

end

theorem State.store_count_toNat (s : State) {im : Image} (h : im.words.length ≤ 256) :
    (s.store im).count.toNat = im.words.length :=
  (BitVec.toNat_ofNat _ _).trans (Nat.mod_eq_of_lt (Nat.lt_of_le_of_lt h (by decide)))

/-- A load of at most 256 words keeps the invariant: it writes ROM below COUNT only. -/
theorem StateInv.store {s : State} {im : Image} (h : StateInv s) (hmax : im.words.length ≤ 256) :
    StateInv (s.store im) := by
  have hcount : (s.store im).count.toNat = im.words.length := s.store_count_toNat hmax
  have hbelow : ∀ cell ∈ (s.store im).rom, cell.1 < (s.store im).count.toNat := by
    intro cell hcell
    obtain ⟨-, hbound, -⟩ := romFrom_bounds hcell
    omega
  exact { h with
    romWf := romFrom_wf (by omega)
    countMax := hcount.trans_le hmax
    romBeyond := hbelow }

/-- Settles O44: reset meets the invariant, and a load, which stores at most 256 words, keeps it. -/
theorem bootMeetsInvariant : Obligations.BootMeetsInvariant :=
  fun c file hlegal => (StateInv.resetFor hlegal).store (loadFile_words_length_le c file)

/-- Settles O50: the ROM after a load reads as the list of stored words, 0 past its end. -/
theorem loadPlacesWordsFromIndexZero : Obligations.LoadPlacesWordsFromIndexZero := by
  refine fun c file => ⟨State.store_count_toNat _ (loadFile_words_length_le c file),
    fun i hi => ?_, fun i hi => ?_⟩
  · rw [boot_rom_read, List.getD_eq_getElem _ _ hi]
  · rw [boot_rom_read, List.getD_eq_default _ _ hi]

/-- A load that stores no word leaves COUNT 0 and the ROM zero. -/
theorem boot_of_words_nil {c : Config} {file : Option (List Char)} (h : (loadFile c file).words = []) :
    (State.boot c file).count = 0 ∧ ∀ a, (State.boot c file).romRead a = 0 := by
  refine ⟨congrArg (fun ws : List Byte => BitVec.ofNat 9 ws.length) h, fun a => ?_⟩
  rw [State.romRead, boot_rom_read, h, List.getD_nil]

/-- Settles O56: neither file yields a word; the failed open is the whole log, and lines are reported as
malformed only. -/
theorem failedOpenLoadsNothingAndReports : Obligations.FailedOpenLoadsNothingAndReports := by
  refine ⟨fun c => ?_, fun c text hrejected => ?_⟩
  · obtain ⟨hcount, hrom⟩ := boot_of_words_nil (c := c) (file := none) rfl
    exact ⟨hcount, hrom, boot_log c none⟩
  · have hwords : (loadFile c (some text)).words = [] := by
      rw [loadFile, loadLines_words, List.filterMap_eq_nil_iff.mpr hrejected, List.take_nil]
    obtain ⟨hcount, hrom⟩ := boot_of_words_nil hwords
    refine ⟨hcount, hrom, fun hlog => ?_⟩
    rw [boot_log] at hlog
    obtain ⟨n, hn⟩ := loadLines_reports_malformedLine hlog
    cases hn

/-! ### The hand-over and the next instruction (R186, R190) -/

/-- Settles O57: the halt check alone decides whether the state is handed over. -/
theorem handoverExactlyAfterHalt : Obligations.HandoverExactlyAfterHalt := by
  refine fun s => ⟨fun hhalted => ?_, fun hrun => ?_⟩
  · exact ⟨_, if_pos hhalted, rfl, rfl, rfl, rfl, rfl, rfl, rfl⟩
  · exact if_neg (Bool.eq_false_iff.mp hrun)

/-- Settles O59: MVAR leaves ACC in MEMA or INSTA, and LDA, STA and the jumps take the address and the
target from there. -/
theorem writesAreSeenByTheNextInstruction : Obligations.WritesAreSeenByTheNextInstruction := by
  refine ⟨fun s r x hmema => ?_, fun s r x hinsta => ?_⟩
  · obtain ⟨hlda, hsta⟩ := loadAndStoreUseMema (s.setMema s.acc) x
    exact ⟨s.setMema s.acc, exec_mvar_of_writes (.mema hmema), hlda, hsta⟩
  · exact ⟨s.setInsta s.acc, exec_mvar_of_writes (.insta hinsta),
      fun hzero => ⟨_, exec_jumpz_taken x hzero, rfl⟩,
      fun hneg => ⟨_, exec_jumpn_taken x hneg, rfl⟩⟩

end Sys2Proof.Machine
